-- ==== Sys2Proof/Word.lean ====
section
/-! DEFINITION. The word types of the CHIP-8 engine (spec/00_scope.md R8, R10; spec/10_state.md R20 to R23).
Every value is unsigned (R10). -/

namespace Sys2Proof

/-- A register V0..VF, a memory byte, a timer: 8 bits (R8 `V_WIDTH`, `TIMER_WIDTH`). -/
abbrev Byte := BitVec 8

/-- PC, I, a stack entry, an opcode: 16 bits (R8 `PC_WIDTH`, `I_WIDTH`; 90_conflicts.md C1). -/
abbrev Word := BitVec 16

/-- The number of a general register, the `x` or `y` field (R20, R71): a name, never used as a value (R73). -/
abbrev RegNo := Fin 16

/-- A logical key code 0x0..0xF (R30, R45). -/
abbrev KeyNo := Fin 16

/-- VF, the general register that is also the flag register (R21). -/
abbrev VF : RegNo := 15

end Sys2Proof
end

