-- ==== Sys2Proof/Config.lean ====
section
/-! DEFINITION. The parameters of spec/00_scope.md R8 and the draws of R17, which are free values: opaque constants
without a body, so that nothing can be proved of the value they give. FONT and STACK_DEPTH, the parameters whose value
the source does not fix, are the fields of `Config.Params`, which a reset takes as an argument. -/

namespace Sys2Proof.Config

/-- `MEM_SIZE`: addresses 0x000 to 0xFFF (R8, R9). -/
abbrev memSize : Nat := 4096

/-- The highest address memory decodes, 0xFFF (R9, R53). -/
abbrev memTop : Nat := memSize - 1

/-- `NUM_V` (R8). -/
abbrev numV : Nat := 16

/-- `PC_RESET` (R8, R47). -/
abbrev pcReset : Word := 0x200

/-- `PROG_BASE` (R8, R51). -/
abbrev progBase : Nat := 0x200

/-- `MAX_ROM` = 4096 − 0x200 = 3584 bytes (R8, R231). -/
abbrev maxRom : Nat := memSize - progBase

/-- `FONT_BASE` (R8, R51). -/
abbrev fontBase : Nat := 0x000

/-- `GLYPH_BYTES` (R8, R153). -/
abbrev glyphBytes : Nat := 5

/-- `NUM_GLYPHS` (R8). -/
abbrev numGlyphs : Nat := 16

/-- The 80 glyph bytes, in address order (R8, R233). -/
abbrev Font := Vector Byte (numGlyphs * glyphBytes)

/-- The parameters of R8 that an implementation sets. Its default is `Config.standard` of
Sys2Proof/Machine/Font.lean. -/
structure Params where
  /-- `FONT`: any 80 bytes (R8, R233, I9) -/
  font : Font
  /-- `STACK_DEPTH`: any number of entries (R8, R24, D5, I7) -/
  stackDepth : Nat
  deriving DecidableEq, Repr

/-- `FB_W` (R8, R29). -/
abbrev fbWidth : Nat := 64

/-- `FB_H` (R8, R29). -/
abbrev fbHeight : Nat := 32

/-- `NUM_KEYS` (R8, R30). -/
abbrev numKeys : Nat := 16

/-- `RAND` (R17, R142, D20): the byte that draw number `k` gives to `Cxkk`. A FREE VALUE: any byte, under no law.
DESIGN CHOICE of the form, log 2; safe. -/
opaque randByte : Nat → Byte

/-- `KEY_SELECT` (R17, R188, D15): draw number `k` picks the pressed key whose place among the pressed keys is this
number modulo how many are pressed. A FREE VALUE, so that every pressed key may be the one taken.
DESIGN CHOICE of the form, log 3; safe. -/
opaque keyChoice : Nat → Nat

end Sys2Proof.Config
end

