-- ==== Sys2Proof/Machine/Font.lean ====
section
/-! DEFINITION. The defaults of the configuration: STACK_DEPTH (spec/00_scope.md R8), and FONT (spec/70_reset_and_hazards.md
R233): 16 glyphs, glyph d at 5·d, top row first, bit 7 leftmost. PRESUMED: the spec takes the glyph bytes from general
knowledge (decision D19), log 4; unsafe for a claim about the shape of a glyph in `State.reset`. -/

namespace Sys2Proof

/-- The glyphs 0 to 7. -/
def Config.fontLow : List Byte :=
  [0xF0, 0x90, 0x90, 0x90, 0xF0] ++ [0x20, 0x60, 0x20, 0x20, 0x70] ++
  [0xF0, 0x10, 0xF0, 0x80, 0xF0] ++ [0xF0, 0x10, 0xF0, 0x10, 0xF0] ++
  [0x90, 0x90, 0xF0, 0x10, 0x10] ++ [0xF0, 0x80, 0xF0, 0x10, 0xF0] ++
  [0xF0, 0x80, 0xF0, 0x90, 0xF0] ++ [0xF0, 0x10, 0x20, 0x40, 0x40]

/-- The glyphs 8 to F. -/
def Config.fontHigh : List Byte :=
  [0xF0, 0x90, 0xF0, 0x90, 0xF0] ++ [0xF0, 0x90, 0xF0, 0x10, 0xF0] ++
  [0xF0, 0x90, 0xF0, 0x90, 0x90] ++ [0xE0, 0x90, 0xE0, 0x90, 0xE0] ++
  [0xF0, 0x80, 0x80, 0x80, 0xF0] ++ [0xE0, 0x90, 0x90, 0x90, 0xE0] ++
  [0xF0, 0x80, 0xF0, 0x80, 0xF0] ++ [0xF0, 0x80, 0xF0, 0x80, 0x80]

/-- The default of `FONT`. -/
def Config.defaultFont : Config.Font := ⟨(Config.fontLow ++ Config.fontHigh).toArray, rfl⟩

/-- The default of `STACK_DEPTH` (R8, R24; the spec's decision D5). DESIGN CHOICE of the spec, log 14; unsafe if the
implementation's stack is shallower. -/
def Config.defaultStackDepth : Nat := 16

/-- The configuration with every parameter at its default (D5 and D19, logs 4 and 14). -/
def Config.standard : Config.Params := { font := Config.defaultFont, stackDepth := Config.defaultStackDepth }

end Sys2Proof
end

