-- ==== Sys2Proof/Syntax.lean ====
section
/-! DEFINITION. The instruction set: one constructor for each of the 34 rows of spec/opcode_table.json, in the order of
spec/30_encoding.md R75. Registers are names (`RegNo`), `kk` and `nnn` are the bits the encoding holds, `n` is a count
(R71, R73), checked by WellFormed. -/

namespace Sys2Proof

/-- An instruction of R75. The constructor's comment gives the pattern, the mnemonic of R81 and the rule. -/
inductive Instr where
  /-- `00E0` CLS (R166) -/
  | cls
  /-- `00EE` RET (R111) -/
  | ret
  /-- `1nnn` JP nnn (R112) -/
  | jp (nnn : BitVec 12)
  /-- `2nnn` CALL nnn (R113) -/
  | call (nnn : BitVec 12)
  /-- `3xkk` SE Vx, kk (R115) -/
  | seImm (x : RegNo) (kk : Byte)
  /-- `4xkk` SNE Vx, kk (R116) -/
  | sneImm (x : RegNo) (kk : Byte)
  /-- `5xy0` SE Vx, Vy (R117) -/
  | seReg (x y : RegNo)
  /-- `6xkk` LD Vx, kk (R131) -/
  | ldImm (x : RegNo) (kk : Byte)
  /-- `7xkk` ADD Vx, kk (R132) -/
  | addImm (x : RegNo) (kk : Byte)
  /-- `8xy0` LD Vx, Vy (R133) -/
  | ldReg (x y : RegNo)
  /-- `8xy1` OR Vx, Vy (R134) -/
  | orReg (x y : RegNo)
  /-- `8xy2` AND Vx, Vy (R135) -/
  | andReg (x y : RegNo)
  /-- `8xy3` XOR Vx, Vy (R136) -/
  | xorReg (x y : RegNo)
  /-- `8xy4` ADD Vx, Vy (R137) -/
  | addReg (x y : RegNo)
  /-- `8xy5` SUB Vx, Vy (R138) -/
  | sub (x y : RegNo)
  /-- `8xy6` SHR Vx (R139); `y` is encoded and ignored (R76). DESIGN CHOICE to keep it in the term, log 38; safe -/
  | shr (x y : RegNo)
  /-- `8xy7` SUBN Vx, Vy (R140) -/
  | subn (x y : RegNo)
  /-- `8xyE` SHL Vx (R141); `y` is encoded and ignored (R76). DESIGN CHOICE to keep it in the term, log 38; safe -/
  | shl (x y : RegNo)
  /-- `9xy0` SNE Vx, Vy (R118) -/
  | sneReg (x y : RegNo)
  /-- `Annn` LD I, nnn (R151) -/
  | ldI (nnn : BitVec 12)
  /-- `Bnnn` JP V0, nnn (R119) -/
  | jpV0 (nnn : BitVec 12)
  /-- `Cxkk` RND Vx, kk (R142) -/
  | rnd (x : RegNo) (kk : Byte)
  /-- `Dxyn` DRW Vx, Vy, n (R170); `n` is an unsigned count 0..15 (R73) -/
  | drw (x y : RegNo) (n : Nat)
  /-- `Ex9E` SKP Vx (R184) -/
  | skp (x : RegNo)
  /-- `ExA1` SKNP Vx (R185) -/
  | sknp (x : RegNo)
  /-- `Fx07` LD Vx, DT (R181) -/
  | ldVxDt (x : RegNo)
  /-- `Fx0A` LD Vx, K (R186) -/
  | ldVxK (x : RegNo)
  /-- `Fx15` LD DT, Vx (R182) -/
  | ldDtVx (x : RegNo)
  /-- `Fx18` LD ST, Vx (R183) -/
  | ldStVx (x : RegNo)
  /-- `Fx1E` ADD I, Vx (R152) -/
  | addI (x : RegNo)
  /-- `Fx29` LD F, Vx (R153) -/
  | ldF (x : RegNo)
  /-- `Fx33` LD B, Vx (R154) -/
  | ldB (x : RegNo)
  /-- `Fx55` LD [I], Vx (R155) -/
  | ldMemVx (x : RegNo)
  /-- `Fx65` LD Vx, [I] (R156) -/
  | ldVxMem (x : RegNo)
  deriving DecidableEq, Repr

end Sys2Proof
end

