-- ==== Sys2Proof/Decode.lean ====
section
/-! DEFINITION. Decoding and encoding (spec/30_encoding.md): the fields of R71, the decode function of R80, total on every
16-bit word and on every byte list, the illegal space of R77 by name; then the opcode map of R75 and the encoder
written from it and from the formats of R72. -/

namespace Sys2Proof

/-! ## Fields (R71) -/

/-- `op[15:12]`, the family selector. -/
def Field.top (op : Word) : BitVec 4 := op.extractLsb' 12 4

/-- `x` = `op[11:8]`. -/
def Field.x (op : Word) : RegNo := ⟨(op.extractLsb' 8 4).toNat, (op.extractLsb' 8 4).isLt⟩

/-- `y` = `op[7:4]`. -/
def Field.y (op : Word) : RegNo := ⟨(op.extractLsb' 4 4).toNat, (op.extractLsb' 4 4).isLt⟩

/-- `n` = `op[3:0]`. -/
def Field.n (op : Word) : BitVec 4 := op.extractLsb' 0 4

/-- `kk` = `op[7:0]`. -/
def Field.kk (op : Word) : Byte := op.extractLsb' 0 8

/-- `nnn` = `op[11:0]`. -/
def Field.nnn (op : Word) : BitVec 12 := op.extractLsb' 0 12

/-! ## Decode (R80) -/

/-- Why a word is illegal: the row of R77's table it falls in. -/
inductive Illegal where
  /-- `0nnn` with nnn ∉ {0x0E0, 0x0EE} (R78) -/
  | family0
  /-- `5xyN`, N ≠ 0 (the spec's decision D8) -/
  | family5
  /-- `8xyN`, N ∈ {8, 9, A, B, C, D, F} -/
  | family8
  /-- `9xyN`, N ≠ 0 (D8) -/
  | family9
  /-- `ExKK`, KK ∉ {0x9E, 0xA1} -/
  | familyE
  /-- `FxKK`, KK not one of the nine sub-opcodes -/
  | familyF
  deriving DecidableEq, Repr

/-- Family 0 matches the full opcode (R74). -/
def decodeFamily0 (op : Word) : Except Illegal Instr :=
  if op = 0x00E0 then .ok .cls else if op = 0x00EE then .ok .ret else .error .family0

/-- Family 8 uses the low nibble (R74). -/
def decodeFamily8 (x y : RegNo) (n : Nat) : Except Illegal Instr :=
  match n with
  | 0x0 => .ok (.ldReg x y)
  | 0x1 => .ok (.orReg x y)
  | 0x2 => .ok (.andReg x y)
  | 0x3 => .ok (.xorReg x y)
  | 0x4 => .ok (.addReg x y)
  | 0x5 => .ok (.sub x y)
  | 0x6 => .ok (.shr x y)
  | 0x7 => .ok (.subn x y)
  | 0xE => .ok (.shl x y)
  | _ => .error .family8

/-- Family E uses the low byte (R74). -/
def decodeFamilyE (x : RegNo) (kk : Nat) : Except Illegal Instr :=
  match kk with
  | 0x9E => .ok (.skp x)
  | 0xA1 => .ok (.sknp x)
  | _ => .error .familyE

/-- Family F uses the low byte (R74). -/
def decodeFamilyF (x : RegNo) (kk : Nat) : Except Illegal Instr :=
  match kk with
  | 0x07 => .ok (.ldVxDt x)
  | 0x0A => .ok (.ldVxK x)
  | 0x15 => .ok (.ldDtVx x)
  | 0x18 => .ok (.ldStVx x)
  | 0x1E => .ok (.addI x)
  | 0x29 => .ok (.ldF x)
  | 0x33 => .ok (.ldB x)
  | 0x55 => .ok (.ldMemVx x)
  | 0x65 => .ok (.ldVxMem x)
  | _ => .error .familyF

/-- The decode function of R80, total on all 65536 words; an illegal word is refused by name (R77). -/
def decode (op : Word) : Except Illegal Instr :=
  let x := Field.x op
  let y := Field.y op
  let kk := Field.kk op
  let nnn := Field.nnn op
  match (Field.top op).toNat with
  | 0x0 => decodeFamily0 op
  | 0x1 => .ok (.jp nnn)
  | 0x2 => .ok (.call nnn)
  | 0x3 => .ok (.seImm x kk)
  | 0x4 => .ok (.sneImm x kk)
  | 0x5 => if Field.n op = 0 then .ok (.seReg x y) else .error .family5
  | 0x6 => .ok (.ldImm x kk)
  | 0x7 => .ok (.addImm x kk)
  | 0x8 => decodeFamily8 x y (Field.n op).toNat
  | 0x9 => if Field.n op = 0 then .ok (.sneReg x y) else .error .family9
  | 0xA => .ok (.ldI nnn)
  | 0xB => .ok (.jpV0 nnn)
  | 0xC => .ok (.rnd x kk)
  | 0xD => .ok (.drw x y (Field.n op).toNat)
  | 0xE => decodeFamilyE x kk.toNat
  | _ => decodeFamilyF x kk.toNat

/-! ## Bytes (R52, R70) -/

/-- The opcode of two consecutive bytes, big-endian: the byte at the lower address holds bits 15:8 (R52). -/
def wordOfBytes (first second : Byte) : Word := first ++ second

/-- The two bytes of an opcode in address order (R52). -/
def wordBytes (op : Word) : List Byte := [op.extractLsb' 8 8, op.extractLsb' 0 8]

/-- Why a byte list does not begin with an instruction. -/
inductive DecodeReject where
  /-- fewer than the 2 bytes every instruction has (R70) -/
  | truncated
  /-- the first two bytes are an illegal opcode (R77) -/
  | illegal (why : Illegal)
  deriving DecidableEq, Repr

/-- The instruction a byte list begins with, and the rest of the list: exactly 2 bytes are consumed (R70). -/
def decodeBytes : List Byte → Except DecodeReject (Instr × List Byte)
  | first :: second :: rest =>
    match decode (wordOfBytes first second) with
    | .ok i => .ok (i, rest)
    | .error why => .error (.illegal why)
  | _ => .error .truncated

/-- The opcode whose bits are `w` as spec/opcode_table.json numbers them, every bit from `nbits` up being 0. -/
def tableWord (nbits w : Nat) : Word := BitVec.ofNat 16 (w % 2 ^ nbits)

/-- What the decoder reads from the bytes of the table's word `w`, laid out as memory holds them (R52). -/
def decodeTableWord (nbits w : Nat) : Option Instr :=
  match decodeBytes (wordBytes (tableWord nbits w)) with
  | .ok (i, _) => some i
  | .error _ => none

/-! ## The opcode map (R75) -/

/-- A row of R75: `op AND mask = pattern` selects it. -/
structure OpRow where
  pattern : Word
  mask : Word
  deriving DecidableEq, Repr

/-- The row of R75 that an instruction belongs to. -/
def Instr.row : Instr → OpRow
  | .cls => ⟨0x00E0, 0xFFFF⟩
  | .ret => ⟨0x00EE, 0xFFFF⟩
  | .jp _ => ⟨0x1000, 0xF000⟩
  | .call _ => ⟨0x2000, 0xF000⟩
  | .seImm _ _ => ⟨0x3000, 0xF000⟩
  | .sneImm _ _ => ⟨0x4000, 0xF000⟩
  | .seReg _ _ => ⟨0x5000, 0xF00F⟩
  | .ldImm _ _ => ⟨0x6000, 0xF000⟩
  | .addImm _ _ => ⟨0x7000, 0xF000⟩
  | .ldReg _ _ => ⟨0x8000, 0xF00F⟩
  | .orReg _ _ => ⟨0x8001, 0xF00F⟩
  | .andReg _ _ => ⟨0x8002, 0xF00F⟩
  | .xorReg _ _ => ⟨0x8003, 0xF00F⟩
  | .addReg _ _ => ⟨0x8004, 0xF00F⟩
  | .sub _ _ => ⟨0x8005, 0xF00F⟩
  | .shr _ _ => ⟨0x8006, 0xF00F⟩
  | .subn _ _ => ⟨0x8007, 0xF00F⟩
  | .shl _ _ => ⟨0x800E, 0xF00F⟩
  | .sneReg _ _ => ⟨0x9000, 0xF00F⟩
  | .ldI _ => ⟨0xA000, 0xF000⟩
  | .jpV0 _ => ⟨0xB000, 0xF000⟩
  | .rnd _ _ => ⟨0xC000, 0xF000⟩
  | .drw _ _ _ => ⟨0xD000, 0xF000⟩
  | .skp _ => ⟨0xE09E, 0xF0FF⟩
  | .sknp _ => ⟨0xE0A1, 0xF0FF⟩
  | .ldVxDt _ => ⟨0xF007, 0xF0FF⟩
  | .ldVxK _ => ⟨0xF00A, 0xF0FF⟩
  | .ldDtVx _ => ⟨0xF015, 0xF0FF⟩
  | .ldStVx _ => ⟨0xF018, 0xF0FF⟩
  | .addI _ => ⟨0xF01E, 0xF0FF⟩
  | .ldF _ => ⟨0xF029, 0xF0FF⟩
  | .ldB _ => ⟨0xF033, 0xF0FF⟩
  | .ldMemVx _ => ⟨0xF055, 0xF0FF⟩
  | .ldVxMem _ => ⟨0xF065, 0xF0FF⟩

/-- R75's rows 1 to 9. -/
def opcodeRowsLow : List OpRow :=
  [⟨0x00E0, 0xFFFF⟩, ⟨0x00EE, 0xFFFF⟩, ⟨0x1000, 0xF000⟩, ⟨0x2000, 0xF000⟩, ⟨0x3000, 0xF000⟩, ⟨0x4000, 0xF000⟩,
   ⟨0x5000, 0xF00F⟩, ⟨0x6000, 0xF000⟩, ⟨0x7000, 0xF000⟩]

/-- R75's rows 10 to 19. -/
def opcodeRowsRegister : List OpRow :=
  [⟨0x8000, 0xF00F⟩, ⟨0x8001, 0xF00F⟩, ⟨0x8002, 0xF00F⟩, ⟨0x8003, 0xF00F⟩, ⟨0x8004, 0xF00F⟩, ⟨0x8005, 0xF00F⟩,
   ⟨0x8006, 0xF00F⟩, ⟨0x8007, 0xF00F⟩, ⟨0x800E, 0xF00F⟩, ⟨0x9000, 0xF00F⟩]

/-- R75's rows 20 to 34. -/
def opcodeRowsHigh : List OpRow :=
  [⟨0xA000, 0xF000⟩, ⟨0xB000, 0xF000⟩, ⟨0xC000, 0xF000⟩, ⟨0xD000, 0xF000⟩, ⟨0xE09E, 0xF0FF⟩, ⟨0xE0A1, 0xF0FF⟩,
   ⟨0xF007, 0xF0FF⟩, ⟨0xF00A, 0xF0FF⟩, ⟨0xF015, 0xF0FF⟩, ⟨0xF018, 0xF0FF⟩, ⟨0xF01E, 0xF0FF⟩, ⟨0xF029, 0xF0FF⟩,
   ⟨0xF033, 0xF0FF⟩, ⟨0xF055, 0xF0FF⟩, ⟨0xF065, 0xF0FF⟩]

/-- The opcode map of R75, all 34 rows in order. -/
def opcodeTable : List OpRow := opcodeRowsLow ++ opcodeRowsRegister ++ opcodeRowsHigh

/-- A word belongs to a row: `op AND mask = match` (R75). -/
def OpRow.selects (r : OpRow) (op : Word) : Bool := op &&& r.mask == r.pattern

/-! ## Encode (R72) -/

/-- A register number as the 4 bits of an `x` or `y` field. -/
def regBits (r : RegNo) : BitVec 4 := BitVec.ofNat 4 r.val

/-- Format `NNN`. -/
def encodeNNN (top : BitVec 4) (nnn : BitVec 12) : Word := top ++ nnn

/-- Formats `XKK` and `XSS`: the low byte is an operand or a sub-opcode. -/
def encodeXKK (top : BitVec 4) (x : RegNo) (kk : Byte) : Word := top ++ regBits x ++ kk

/-- Formats `XYS` and `XYN`: the low nibble is a sub-opcode or an operand. -/
def encodeXYN (top : BitVec 4) (x y : RegNo) (n : BitVec 4) : Word := top ++ regBits x ++ regBits y ++ n

/-- The word of an instruction (R72, R75). -/
def encode : Instr → Word
  | .cls => 0x00E0
  | .ret => 0x00EE
  | .jp nnn => encodeNNN 0x1 nnn
  | .call nnn => encodeNNN 0x2 nnn
  | .seImm x kk => encodeXKK 0x3 x kk
  | .sneImm x kk => encodeXKK 0x4 x kk
  | .seReg x y => encodeXYN 0x5 x y 0x0
  | .ldImm x kk => encodeXKK 0x6 x kk
  | .addImm x kk => encodeXKK 0x7 x kk
  | .ldReg x y => encodeXYN 0x8 x y 0x0
  | .orReg x y => encodeXYN 0x8 x y 0x1
  | .andReg x y => encodeXYN 0x8 x y 0x2
  | .xorReg x y => encodeXYN 0x8 x y 0x3
  | .addReg x y => encodeXYN 0x8 x y 0x4
  | .sub x y => encodeXYN 0x8 x y 0x5
  | .shr x y => encodeXYN 0x8 x y 0x6
  | .subn x y => encodeXYN 0x8 x y 0x7
  | .shl x y => encodeXYN 0x8 x y 0xE
  | .sneReg x y => encodeXYN 0x9 x y 0x0
  | .ldI nnn => encodeNNN 0xA nnn
  | .jpV0 nnn => encodeNNN 0xB nnn
  | .rnd x kk => encodeXKK 0xC x kk
  | .drw x y n => encodeXYN 0xD x y (BitVec.ofNat 4 n)
  | .skp x => encodeXKK 0xE x 0x9E
  | .sknp x => encodeXKK 0xE x 0xA1
  | .ldVxDt x => encodeXKK 0xF x 0x07
  | .ldVxK x => encodeXKK 0xF x 0x0A
  | .ldDtVx x => encodeXKK 0xF x 0x15
  | .ldStVx x => encodeXKK 0xF x 0x18
  | .addI x => encodeXKK 0xF x 0x1E
  | .ldF x => encodeXKK 0xF x 0x29
  | .ldB x => encodeXKK 0xF x 0x33
  | .ldMemVx x => encodeXKK 0xF x 0x55
  | .ldVxMem x => encodeXKK 0xF x 0x65

/-- The two bytes of an instruction in address order. -/
def encodeBytes (i : Instr) : List Byte := wordBytes (encode i)

end Sys2Proof
end

