-- ==== Sys2Proof/Machine/Memory.lean ====
section
/-! DEFINITION. Memory and its named operations (spec/20_memory.md): what an unlisted address reads as, the canonical form,
one byte read and written, several bytes, and the memory with a font loaded. -/

namespace Sys2Proof.Machine

/-- Memory: the bytes that are not 0, by rising address. -/
abbrev Memory := List Host.Cell

/-- What an address that memory does not list reads as: 0, to which a reset zeroes all of memory before it loads FONT
and the ROM (spec/70_reset_and_hazards.md R231; log 5). -/
def Memory.blank (_ : Nat) : Byte := 0

/-- The canonical form: addresses strictly rising, each below 4096, and no entry equal to what its address reads as
when it is not listed. -/
abbrev Memory.wf (m : Memory) : Prop :=
  m.Pairwise (fun c d => c.1 < d.1) ∧ ∀ c ∈ m, c.1 < Config.memSize ∧ c.2 ≠ Memory.blank c.1

/-- The byte at an address: `MemRead(a, 1)` (spec/00_scope.md R13, spec/20_memory.md R59). Reading changes nothing
(R57). -/
def Memory.read : Memory → Nat → Byte
  | [], a => Memory.blank a
  | (k, b) :: m, a => if k = a then b else Memory.read m a

/-- `MemWrite(a, 1, b)`, keeping the canonical form: a byte equal to the unlisted one removes the entry. -/
def Memory.write : Memory → Nat → Byte → Memory
  | [], a, b => if b = Memory.blank a then [] else [(a, b)]
  | (k, c) :: m, a, b =>
    if a < k then (if b = Memory.blank a then (k, c) :: m else (a, b) :: (k, c) :: m)
    else if a = k then (if b = Memory.blank a then m else (a, b) :: m)
    else (k, c) :: Memory.write m a b

/-- `n` bytes from `a` up, in address order. -/
def Memory.readBytes (m : Memory) (a n : Nat) : List Byte := (List.range n).map fun j => m.read (a + j)

/-- Bytes stored from `a` up, in address order. -/
def Memory.writeBytes : Memory → Nat → List Byte → Memory
  | m, _, [] => m
  | m, a, b :: bs => Memory.writeBytes (m.write a b) (a + 1) bs

/-- `MemRead(a, 2)`: big-endian, the byte at the lower address holds bits 15:8 (R13, R52). -/
def Memory.readWord (m : Memory) (a : Nat) : Word := wordOfBytes (m.read a) (m.read (a + 1))

/-- Zeroed memory with `FONT` loaded at FONT_BASE (R231, R233). -/
def Memory.withFont (font : Config.Font) : Memory := Memory.writeBytes [] Config.fontBase font.toList

end Sys2Proof.Machine
end

