-- ==== Sys2Proof/Machine/State.lean ====
section
/-! DEFINITION. The machine's state as plain data (spec/10_state.md R20 to R33), what a step and a load report (R42, R43),
why a step could stop, and the state after reset (R47). -/

namespace Sys2Proof.Machine

/-- The kind of a memory access (spec/20_memory.md R53). -/
inductive AccessKind where
  | fetch
  | read
  | write
  deriving DecidableEq, Repr

/-- The cause of a fatal outcome, which HALT holds (spec/10_state.md R32, spec/60_exceptions.md R200). -/
inductive HaltCause where
  /-- `00EE` with the stack empty (R202) -/
  | stackUnderflow
  /-- `2nnn` with the stack full (R203) -/
  | stackOverflow
  /-- an access above 0xFFF: its kind and the lowest offending address, a natural number (R53, R204) -/
  | addressError (kind : AccessKind) (addr : Nat)
  /-- a ROM longer than 3584 bytes: its length (R207, R232) -/
  | romTooLarge (len : Nat)
  deriving DecidableEq, Repr

/-- What a `step()` or a `reset_load` returns to the host (R42, R200). -/
inductive Status where
  /-- the instruction, or the load, completed -/
  | ok
  /-- an `Fx0A` found no key -/
  | waiting
  /-- an illegal opcode and the address it was fetched from (R201) -/
  | decodeError (op : Word) (addr : Word)
  /-- a fatal outcome of a step, or a step while halted (R205) -/
  | fatal (cause : HaltCause)
  /-- `reset_load` refused a ROM of this length (R207) -/
  | romTooLarge (len : Nat)
  deriving DecidableEq, Repr

/-- A display intent (R43). -/
inductive Intent where
  /-- `clear()` -/
  | clear
  /-- `set(x, y, lit)` -/
  | setPixel (x : Fin Config.fbWidth) (y : Fin Config.fbHeight) (lit : Bool)
  deriving DecidableEq, Repr

/-- `FB[c][r]`: 64 columns of 32 cells, true = lit (R29). -/
abbrev Framebuffer := Vector (Vector Bool Config.fbHeight) Config.fbWidth

/-- The state of the block. The first twelve fields are the spec's state (R20 to R32); `status` and `intents` are the
outputs of the last step or load (R42, R43, log 1); the last two are the model's own. -/
structure State where
  /-- V0..VF (R20, R21) -/
  v : Vector Byte Config.numV
  /-- the index register I (R22) -/
  i : Word
  /-- the program counter PC (R23) -/
  pc : Word
  /-- STACK[0..STACK_DEPTH−1] (R24, R25): as many entries as the reset gave it, which no step changes -/
  stack : List Word
  /-- SP, the number of entries in use, 0..STACK_DEPTH (R25): an invariant of the steps, `State.Inv.stackBound` -/
  sp : Nat
  /-- the delay timer DT (R26) -/
  dt : Byte
  /-- the sound timer ST (R27) -/
  st : Byte
  /-- the 4096 bytes of memory (R28, R50) -/
  mem : Memory
  /-- the framebuffer FB (R29) -/
  fb : Framebuffer
  /-- KEYS: bit k is set while key k is pressed (R30) -/
  keys : BitVec Config.numKeys
  /-- WAIT: the destination of a suspended `Fx0A` (R31) -/
  wait : Option RegNo
  /-- HALT: the cause of a fatal outcome (R32) -/
  halt : Option HaltCause
  /-- the status the last step or load returned (R42). DESIGN CHOICE to hold it here, log 1; safe. -/
  status : Status
  /-- the display intents of the last step, in order (R43, R100). DESIGN CHOICE to hold them here, log 1; safe. -/
  intents : List Intent
  /-- how many draws of RAND and KEY_SELECT were taken (R17). DESIGN CHOICE, logs 2 and 3; safe. -/
  draws : Nat
  /-- a step of this run returned `DecodeError`: the sticky record of the spec's decision D34. DESIGN CHOICE, log 8;
  safe. -/
  decodeErrorSeen : Bool
  deriving DecidableEq, Repr

/-- Why a step stops with a fault. There is NO such reason: every error the spec names has an effect on the state
(R94, R101, R206), so a step that raises one answers a next state (log 6; safe). -/
inductive Fault : Type where
  deriving DecidableEq, Repr

/-- Why the model gives no meaning. -/
inductive Refusal where
  /-- raised by an arm of `exec` for an instruction without a meaning; no arm is left that raises it; safe -/
  | notModelled (mnemonic : String)
  /-- raised by `transact` when `step()` or `observe()` comes before any `reset_load`, which the spec leaves undefined
  (spec/70_reset_and_hazards.md R235, spec/93_implementation_defined.md I13; log 27); safe -/
  | beforeResetLoad
  deriving DecidableEq, Repr

/-- What a step answers. -/
abbrev StepResult := Host.Outcome State Fault Refusal

/-- The machine right after `reset_load` of an empty ROM, whatever the configuration: the table of spec/10_state.md R47.
The values of I, SP, STACK, DT, ST, FB, KEYS, WAIT and HALT are the spec's decision D18 (log 9; unsafe where the
implementation starts otherwise). `mem` is zero but for FONT. `draws` and `decodeErrorSeen`: DESIGN CHOICE, logs 2
and 8. -/
def State.resetWith (p : Config.Params) : State where
  v := Vector.replicate Config.numV 0
  i := 0
  pc := Config.pcReset
  stack := List.replicate p.stackDepth 0
  sp := 0
  dt := 0
  st := 0
  mem := Memory.withFont p.font
  fb := Vector.replicate Config.fbWidth (Vector.replicate Config.fbHeight false)
  keys := 0
  wait := none
  halt := none
  status := .ok
  intents := []
  draws := 0
  decodeErrorSeen := false

/-- The machine right after reset, with the default FONT (PRESUMED, D19, log 4) and the default STACK_DEPTH (D5, log 14). -/
def State.reset : State := State.resetWith Config.standard

end Sys2Proof.Machine
end

