-- ==== Sys2Proof/Machine/Framebuffer.lean ====
section
/-! DEFINITION. The framebuffer and the sprite XOR with its collision detector (spec/44_display.md R165 to R170). -/

namespace Sys2Proof.Machine

/-- The cell at column `c`, row `r` (R29). -/
def Framebuffer.get (fb : Framebuffer) (c : Fin Config.fbWidth) (r : Fin Config.fbHeight) : Bool := (fb[c])[r]

/-- One cell written. -/
def Framebuffer.put (fb : Framebuffer) (c : Fin Config.fbWidth) (r : Fin Config.fbHeight) (lit : Bool) :
    Framebuffer :=
  fb.set c ((fb[c]).set r lit)

/-- Every cell unlit (R166). -/
def Framebuffer.unlit : Framebuffer := Vector.replicate Config.fbWidth (Vector.replicate Config.fbHeight false)

/-- The column of a sprite bit: past column 63 the source subtracts 64, once (R167). -/
def wrapColumn (c : Nat) : Nat := if c > 63 then c - 64 else c

/-- `place(vx, vy, b, j)` of R167: the cell of the sprite bit at offset (b, j), or none where the bit is clipped.
Clipping is the spec's decision D12 (log 18; unsafe for sprites past row 31 or column 127). -/
def place (vx vy b j : Nat) : Option (Fin Config.fbWidth × Fin Config.fbHeight) :=
  if h : wrapColumn (vx + b) < Config.fbWidth ∧ vy + j < Config.fbHeight then
    some (⟨wrapColumn (vx + b), h.1⟩, ⟨vy + j, h.2⟩)
  else none

/-- The cells of one sprite row, most significant bit first (R165, R170). -/
def spriteRowCells (vx vy j : Nat) (row : Byte) : List (Fin Config.fbWidth × Fin Config.fbHeight) :=
  (List.range 8).filterMap fun b => if row.getLsbD (7 - b) then place vx vy b j else none

/-- The cells of the sprite rows from row offset `j` on, in toggle order: row by row, bit by bit (R169). -/
def spriteCells (vx vy : Nat) : Nat → List Byte → List (Fin Config.fbWidth × Fin Config.fbHeight)
  | _, [] => []
  | j, row :: rows => spriteRowCells vx vy j row ++ spriteCells vx vy (j + 1) rows

/-- A draw in progress: the framebuffer, whether a lit cell was met, the intents so far. -/
structure Draw where
  fb : Framebuffer
  hit : Bool
  intents : List Intent
  deriving DecidableEq, Repr

/-- One cell toggled: a lit cell goes out and is a collision, an unlit one is not (R168, against the second
sentence of R171: DEDUCED, log 32; safe); the intent carries the new value (R169). -/
def toggleCell (d : Draw) (p : Fin Config.fbWidth × Fin Config.fbHeight) : Draw :=
  if d.fb.get p.1 p.2 then
    { fb := d.fb.put p.1 p.2 false, hit := true, intents := d.intents ++ [.setPixel p.1 p.2 false] }
  else
    { fb := d.fb.put p.1 p.2 true, hit := d.hit, intents := d.intents ++ [.setPixel p.1 p.2 true] }

/-- The sprite `rows` XORed onto `fb` at (vx, vy): the loops of R170. -/
def drawSprite (fb : Framebuffer) (vx vy : Nat) (rows : List Byte) : Draw :=
  (spriteCells vx vy 0 rows).foldl toggleCell { fb := fb, hit := false, intents := [] }

end Sys2Proof.Machine
end

