-- ==== Sys2Proof/Machine/Operands.lean ====
section
/-! DEFINITION. The operand forms (spec/30_encoding.md R71, R73; spec/43_index_memory.md R150): a register, the block V0..Vx, a
zero-extended address, the register-indirect data address `I + i`, a glyph address, a key code. -/

namespace Sys2Proof.Machine

/-- `V[x]` (spec/10_state.md R20): every register is readable, none is hardwired. -/
def State.readV (s : State) (x : RegNo) : Byte := s.v[x]

/-- `V[x] <- b` (R20): the one operation that writes one register. -/
def State.writeV (s : State) (x : RegNo) (b : Byte) : State := { s with v := s.v.set x b }

/-- The values of V0..Vx in order (R155). -/
def State.readBlock (s : State) (x : RegNo) : List Byte := s.v.toList.take (x.val + 1)

/-- `V[i] <- MemRead(base + i, 1)` for i in 0..x (R156). -/
def State.loadBlock (s : State) (x : RegNo) (base : Nat) : State :=
  { s with v := Vector.ofFn fun r : RegNo => if r ≤ x then s.mem.read (base + r.val) else s.v[r] }

/-- `nnn` zero-extended to 16 bits (R73). -/
def address (nnn : BitVec 12) : Word := nnn.setWidth 16

/-- `nnn + V0`, unwrapped: at most 0x10FE, so 16 bits hold it (spec/41_control_flow.md R119). -/
def addressPlusV0 (nnn : BitVec 12) (v0 : Byte) : Word := BitVec.ofNat 16 (nnn.toNat + v0.toNat)

/-- `(I + vx) mod 2^16` (spec/43_index_memory.md R152). -/
def indexPlus (i : Word) (vx : Byte) : Word := BitVec.ofNat 16 (i.toNat + vx.toNat)

/-- The data address in I, as a natural: the i-th byte of an access is at `I + i`, unwrapped (R150). -/
def State.dataAddress (s : State) : Nat := s.i.toNat

/-- The address of the glyph of digit `vx`: 5 bytes a glyph, glyph 0 at FONT_BASE, `vx` not masked
(R153; the spec's decision D4, log 13; unsafe for vx > 0xF). -/
def glyphAddress (vx : Byte) : Word := BitVec.ofNat 16 (Config.fontBase + Config.glyphBytes * vx.toNat)

/-- The decimal digits of a byte: hundreds, tens, units (R154). -/
def bcdDigits (vx : Byte) : List Byte :=
  [BitVec.ofNat 8 (vx.toNat / 100), BitVec.ofNat 8 (vx.toNat / 10 % 10), BitVec.ofNat 8 (vx.toNat % 10)]

/-- `code ∈ KEYS` (spec/45_timers_input.md R184): a level, and false for every code above 0xF (the spec's decision
D16, log 21; unsafe if the implementation waits for a new press). -/
def State.keyPressed (s : State) (code : Byte) : Bool := s.keys.getLsbD code.toNat

/-- The pressed keys, lowest code first (R30). -/
def pressedKeys (keys : BitVec Config.numKeys) : List KeyNo :=
  (List.finRange Config.numKeys).filter fun k => keys.getLsbD k.val

/-- `draw KEY_SELECT(KEYS)` with the choice `choice`: a member of KEYS, none when no key is pressed (R188). Every pressed
key is the answer for some choice. -/
def selectKey (keys : BitVec Config.numKeys) (choice : Nat) : Option KeyNo :=
  (pressedKeys keys)[choice % (pressedKeys keys).length]?

end Sys2Proof.Machine
end

