-- ==== Sys2Proof/Machine/Flags.lean ====
section
/-! DEFINITION. Every computation of VF as a flag (spec/42_alu.md R143, spec/44_display.md R168) and the order in which a flag and a
result are written (R130). -/

namespace Sys2Proof.Machine

/-- A flag's value: 1 or 0. -/
def flagByte (b : Bool) : Byte := if b then 1 else 0

/-- `8xy4`: 1 if the exact sum exceeds 255 (R137). -/
def carryFlag (vx vy : Byte) : Byte := flagByte (decide (vx.toNat + vy.toNat > 255))

/-- `8xy5` and `8xy7`: 1 if the minuend is strictly greater than the subtrahend (R138, R140). -/
def greaterFlag (minuend subtrahend : Byte) : Byte := flagByte (decide (minuend.toNat > subtrahend.toNat))

/-- `8xy6`: the old bit 0 (R139). -/
def lowBitFlag (vx : Byte) : Byte := flagByte (vx.getLsbD 0)

/-- `8xyE`: the old bit 7 (R141). -/
def highBitFlag (vx : Byte) : Byte := flagByte (vx.getLsbD 7)

/-- `Dxyn`: 1 if some cell went from lit to unlit (R168). -/
def collisionFlag (d : Draw) : Byte := flagByte d.hit

/-- `V[0xF] <- flag`, then `V[x] <- result`: with x = F the result is final (R130; the spec's decision D9, log 15; unsafe
only for x = F or y = F). -/
def State.writeFlagged (s : State) (x : RegNo) (flag result : Byte) : State := (s.writeV VF flag).writeV x result

/-- `(vx + vy) mod 256` (R132, R137). -/
def addBytes (a b : Byte) : Byte := BitVec.ofNat 8 (a.toNat + b.toNat)

/-- `(minuend - subtrahend) mod 256`, formed as the exact difference plus 256 (R138, R140). -/
def subBytes (minuend subtrahend : Byte) : Byte := BitVec.ofNat 8 (minuend.toNat + 256 - subtrahend.toNat)

end Sys2Proof.Machine
end

