-- ==== Sys2Proof/Machine/Ops.lean ====
section
/-! DEFINITION. The shared operations of a step: the PC advance and the tick (spec/40_engine.md R93, R96), the errors as the
spec takes them (R94, R101, spec/60_exceptions.md R206), skips (R98), the call stack (spec/41_control_flow.md R111, R113), the
draws (spec/00_scope.md R17). There is no return from an error: the spec has no handler to return from (R210). -/

namespace Sys2Proof.Machine

/-! ## The beginning of an instruction -/

/-- A timer's tick: down by 1 while above 0 (R96). -/
def countDown (t : Byte) : Byte := if t.toNat > 0 then t - 1 else t

/-- `tick()` of R96. -/
def State.tick (s : State) : State := { s with dt := countDown s.dt, st := countDown s.st }

/-- What precedes every handler: `PC <- A + 2`, then the tick (R93, R95), with the step's outputs cleared: status Ok
unless the handler says otherwise, no intent yet (R99, R100). -/
def State.begin (s : State) : State := { s.tick with pc := s.pc + 2, status := .ok, intents := [] }

/-! ## Errors -/

/-- TAKING A FATAL ERROR (R205, R206): everything as at the start of the step, `s`; HALT takes the cause; no intent;
status Fatal(cause). The rollback is the spec's decision D6 (log 6; safe). -/
def takeFatal (cause : HaltCause) (s : State) : State :=
  { s with halt := some cause, status := .fatal cause, intents := [] }

/-- TAKING A DECODE ERROR (R94): `PC <- A + 2`, no tick, nothing else; status DecodeError(op, A); the sticky record of
the spec's decision D34 (log 8; safe). -/
def takeDecodeError (op : Word) (s : State) : State :=
  { s with pc := s.pc + 2, status := .decodeError op s.pc, intents := [], decodeErrorSeen := true }

/-- A step while halted (R101): no state changes, the same Fatal again. -/
def haltedStep (cause : HaltCause) (s : State) : State := { s with status := .fatal cause, intents := [] }

/-- How an instruction ends: with the state its handler made, or with the fatal error it raised, taken at `s`, the
state at the start of the step (R14, R206). -/
def complete (s : State) (r : Except HaltCause State) : StepResult :=
  match r with
  | .ok t => .next t
  | .error cause => .next (takeFatal cause s)

/-- `CheckRange(kind, base, count)` (spec/20_memory.md R53): the error an access to `count` bytes from `base` up raises, if
any. The error carries the lowest offending address. Addresses are naturals and do not wrap: the spec's decision D2
(log 11; safe). -/
def checkRange (kind : AccessKind) (base count : Nat) : Option HaltCause :=
  if count > 0 ∧ base + count - 1 > Config.memTop then some (.addressError kind (max base Config.memSize)) else none

/-- The handler `body` behind its `CheckRange` (R53, R56): no byte moves when the check fails. -/
def guarded (check : Option HaltCause) (body : State) : Except HaltCause State :=
  match check with
  | some cause => .error cause
  | none => .ok body

/-! ## Control flow -/

/-- `PC <- target`. -/
def State.jump (s : State) (target : Word) : State := { s with pc := target }

/-- A skip: `PC <- PC + 2` if the condition holds (R98). -/
def State.skipIf (s : State) (cond : Bool) : State := if cond then { s with pc := s.pc + 2 } else s

/-- `STACK_DEPTH`, the number of entries the stack was given (spec/10_state.md R24; log 14). -/
abbrev State.stackDepth (s : State) : Nat := s.stack.length

/-- Push the advanced PC and raise the stack pointer, or StackOverflow when SP = STACK_DEPTH (R113). -/
def State.pushReturn (s : State) : Except HaltCause State :=
  if s.sp < s.stackDepth then .ok { s with stack := s.stack.set s.sp s.pc, sp := s.sp + 1 }
  else .error .stackOverflow

/-- Lower the stack pointer and pop into PC, or StackUnderflow when SP = 0 (R111). The popped entry keeps its value
(R25). An SP above STACK_DEPTH, which no run reaches, has no entry to pop either (log 14). -/
def State.popReturn (s : State) : Except HaltCause State :=
  if h : 0 < s.sp ∧ s.sp ≤ s.stackDepth then
    .ok { s with sp := s.sp - 1, pc := s.stack[s.sp - 1]'(Nat.lt_of_lt_of_le (Nat.sub_lt h.1 Nat.one_pos) h.2) }
  else .error .stackUnderflow

/-! ## Draws -/

/-- `draw RAND` (R142): a free byte, and the state with the draw taken (log 2; safe). -/
def State.drawRand (s : State) : Byte × State := (Config.randByte s.draws, { s with draws := s.draws + 1 })

/-- `draw KEY_SELECT(KEYS)` (R188): a free member of KEYS zero-extended to 8 bits, and the state with the draw taken;
none when no key is pressed (log 3; safe). -/
def State.drawKey (s : State) : Option (Byte × State) :=
  match selectKey s.keys (Config.keyChoice s.draws) with
  | some k => some (BitVec.ofNat 8 k.val, { s with draws := s.draws + 1 })
  | none => none

/-! ## Outputs -/

/-- `sound_active` = (ST ≠ 0) (spec/10_state.md R44; the spec's decision D17, log 22; unsafe only at the step where ST goes
from 1 to 0). -/
def State.soundActive (s : State) : Bool := decide (s.st ≠ 0)

/-- The numeric code of an access kind (spec/60_exceptions.md R200). -/
def AccessKind.code : AccessKind → Nat
  | .fetch => 0
  | .read => 1
  | .write => 2

/-- The numeric code of a fatal cause (R200). -/
def HaltCause.code : HaltCause → Nat
  | .stackUnderflow => 3
  | .stackOverflow => 4
  | .addressError _ _ => 5
  | .romTooLarge _ => 6

/-- The numeric code of a status (R200; the spec's decision D21). -/
def Status.code : Status → Nat
  | .ok => 0
  | .waiting => 1
  | .decodeError _ _ => 2
  | .fatal cause => cause.code
  | .romTooLarge len => (HaltCause.romTooLarge len).code

end Sys2Proof.Machine
end

