-- ==== Sys2Proof/Machine/Alu.lean ====
section
/-! DEFINITION. The register load, arithmetic and logic instructions and the random byte (spec/42_alu.md). Operands are read
from the state at the start of the step, so before any write (R130). VF changes only where a rule writes it (the spec's
decision D10, log 16). -/

namespace Sys2Proof.Machine

/-- `6xkk` LD Vx, kk (R131). -/
def execLdImm (x : RegNo) (kk : Byte) (s : State) : StepResult := complete s (.ok (s.begin.writeV x kk))

/-- `7xkk` ADD Vx, kk (R132): no carry flag. -/
def execAddImm (x : RegNo) (kk : Byte) (s : State) : StepResult :=
  complete s (.ok (s.begin.writeV x (addBytes (s.readV x) kk)))

/-- `8xy0` LD Vx, Vy (R133). -/
def execLdReg (x y : RegNo) (s : State) : StepResult := complete s (.ok (s.begin.writeV x (s.readV y)))

/-- `8xy1` OR Vx, Vy (R134). -/
def execOrReg (x y : RegNo) (s : State) : StepResult :=
  complete s (.ok (s.begin.writeV x (s.readV x ||| s.readV y)))

/-- `8xy2` AND Vx, Vy (R135). -/
def execAndReg (x y : RegNo) (s : State) : StepResult :=
  complete s (.ok (s.begin.writeV x (s.readV x &&& s.readV y)))

/-- `8xy3` XOR Vx, Vy (R136). -/
def execXorReg (x y : RegNo) (s : State) : StepResult :=
  complete s (.ok (s.begin.writeV x (s.readV x ^^^ s.readV y)))

/-- `8xy4` ADD Vx, Vy (R137). -/
def execAddReg (x y : RegNo) (s : State) : StepResult :=
  complete s (.ok (s.begin.writeFlagged x (carryFlag (s.readV x) (s.readV y)) (addBytes (s.readV x) (s.readV y))))

/-- `8xy5` SUB Vx, Vy (R138). -/
def execSub (x y : RegNo) (s : State) : StepResult :=
  complete s (.ok (s.begin.writeFlagged x (greaterFlag (s.readV x) (s.readV y)) (subBytes (s.readV x) (s.readV y))))

/-- `8xy6` SHR Vx (R139): it shifts Vx; `_y` is ignored (R76). -/
def execShr (x _y : RegNo) (s : State) : StepResult :=
  complete s (.ok (s.begin.writeFlagged x (lowBitFlag (s.readV x)) (s.readV x >>> 1)))

/-- `8xy7` SUBN Vx, Vy (R140). -/
def execSubn (x y : RegNo) (s : State) : StepResult :=
  complete s (.ok (s.begin.writeFlagged x (greaterFlag (s.readV y) (s.readV x)) (subBytes (s.readV y) (s.readV x))))

/-- `8xyE` SHL Vx (R141): it shifts Vx; `_y` is ignored (R76). -/
def execShl (x _y : RegNo) (s : State) : StepResult :=
  complete s (.ok (s.begin.writeFlagged x (highBitFlag (s.readV x)) (s.readV x <<< 1)))

/-- `Cxkk` RND Vx, kk (R142): a free byte, masked. -/
def execRnd (x : RegNo) (kk : Byte) (s : State) : StepResult :=
  complete s (.ok (s.begin.drawRand.2.writeV x (s.begin.drawRand.1 &&& kk)))

end Sys2Proof.Machine
end

