-- ==== Sys2Proof/Machine/ControlFlow.lean ====
section
/-! DEFINITION. The control-flow instructions (spec/41_control_flow.md). A meaning is handed the state at the start of the step,
with PC = A, and begins with the PC advance and the tick (log 7; safe). -/

namespace Sys2Proof.Machine

/-- `00EE` RET (R111). -/
def execRet (s : State) : StepResult := complete s s.begin.popReturn

/-- `1nnn` JP nnn (R112). -/
def execJp (nnn : BitVec 12) (s : State) : StepResult := complete s (.ok (s.begin.jump (address nnn)))

/-- `2nnn` CALL nnn (R113): the pushed PC is A + 2. -/
def execCall (nnn : BitVec 12) (s : State) : StepResult :=
  complete s (s.begin.pushReturn.map fun t => t.jump (address nnn))

/-- `3xkk` SE Vx, kk (R115). -/
def execSeImm (x : RegNo) (kk : Byte) (s : State) : StepResult :=
  complete s (.ok (s.begin.skipIf (s.readV x == kk)))

/-- `4xkk` SNE Vx, kk (R116). -/
def execSneImm (x : RegNo) (kk : Byte) (s : State) : StepResult :=
  complete s (.ok (s.begin.skipIf (s.readV x != kk)))

/-- `5xy0` SE Vx, Vy (R117). -/
def execSeReg (x y : RegNo) (s : State) : StepResult :=
  complete s (.ok (s.begin.skipIf (s.readV x == s.readV y)))

/-- `9xy0` SNE Vx, Vy (R118). -/
def execSneReg (x y : RegNo) (s : State) : StepResult :=
  complete s (.ok (s.begin.skipIf (s.readV x != s.readV y)))

/-- `Bnnn` JP V0, nnn (R119): always V0; a target past 0xFFE faults at the next fetch, not here. -/
def execJpV0 (nnn : BitVec 12) (s : State) : StepResult :=
  complete s (.ok (s.begin.jump (addressPlusV0 nnn (s.readV 0))))

end Sys2Proof.Machine
end

