-- ==== Sys2Proof/Machine/Display.lean ====
section
/-! DEFINITION. The display instructions (spec/44_display.md). -/

namespace Sys2Proof.Machine

/-- `00E0` CLS (R166): every cell unlit, exactly one `clear()` intent (the spec's decision D24, log 25; safe). -/
def execCls (s : State) : StepResult :=
  complete s (.ok { s.begin with fb := Framebuffer.unlit, intents := [.clear] })

/-- `Dxyn` DRW Vx, Vy, n (R170): coordinates sampled first, all n bytes checked and read before any cell changes (the
spec's decision D13, log 19), VF = 1 exactly on a collision. -/
def execDrw (x y : RegNo) (n : Nat) (s : State) : StepResult :=
  let d := drawSprite s.fb (s.readV x).toNat (s.readV y).toNat (s.mem.readBytes s.dataAddress n)
  complete s (guarded (checkRange .read s.dataAddress n)
    { s.begin.writeV VF (collisionFlag d) with fb := d.fb, intents := d.intents })

end Sys2Proof.Machine
end

