-- ==== Sys2Proof/Machine/IndexMemory.lean ====
section
/-! DEFINITION. The index register and memory instructions (spec/43_index_memory.md). No access changes I (R150; the spec's
decision D11, log 17). A whole range is checked before its first byte moves (R53, R56). -/

namespace Sys2Proof.Machine

/-- `Annn` LD I, nnn (R151). -/
def execLdI (nnn : BitVec 12) (s : State) : StepResult := complete s (.ok { s.begin with i := address nnn })

/-- `Fx1E` ADD I, Vx (R152): modulo 2^16, no flag, no error at the add (the spec's decision D3, log 12). -/
def execAddI (x : RegNo) (s : State) : StepResult :=
  complete s (.ok { s.begin with i := indexPlus s.i (s.readV x) })

/-- `Fx29` LD F, Vx (R153). -/
def execLdF (x : RegNo) (s : State) : StepResult :=
  complete s (.ok { s.begin with i := glyphAddress (s.readV x) })

/-- `Fx33` LD B, Vx (R154). -/
def execLdB (x : RegNo) (s : State) : StepResult :=
  complete s (guarded (checkRange .write s.dataAddress 3)
    { s.begin with mem := s.mem.writeBytes s.dataAddress (bcdDigits (s.readV x)) })

/-- `Fx55` LD [I], Vx (R155). -/
def execLdMemVx (x : RegNo) (s : State) : StepResult :=
  complete s (guarded (checkRange .write s.dataAddress (x.val + 1))
    { s.begin with mem := s.mem.writeBytes s.dataAddress (s.readBlock x) })

/-- `Fx65` LD Vx, [I] (R156). -/
def execLdVxMem (x : RegNo) (s : State) : StepResult :=
  complete s (guarded (checkRange .read s.dataAddress (x.val + 1)) (s.begin.loadBlock x s.dataAddress))

end Sys2Proof.Machine
end

