-- ==== Sys2Proof/Machine/TimersInput.lean ====
section
/-! DEFINITION. The timer and input instructions (spec/45_timers_input.md). Each runs after the step's tick (R180). -/

namespace Sys2Proof.Machine

/-- `Fx07` LD Vx, DT (R181): DT as this step's tick left it. -/
def execLdVxDt (x : RegNo) (s : State) : StepResult := complete s (.ok (s.begin.writeV x s.begin.dt))

/-- `Fx15` LD DT, Vx (R182): not decremented in this step. -/
def execLdDtVx (x : RegNo) (s : State) : StepResult := complete s (.ok { s.begin with dt := s.readV x })

/-- `Fx18` LD ST, Vx (R183): every value is honoured (the spec's decision D32). -/
def execLdStVx (x : RegNo) (s : State) : StepResult := complete s (.ok { s.begin with st := s.readV x })

/-- `Ex9E` SKP Vx (R184). -/
def execSkp (x : RegNo) (s : State) : StepResult :=
  complete s (.ok (s.begin.skipIf (s.keyPressed (s.readV x))))

/-- `ExA1` SKNP Vx (R185). -/
def execSknp (x : RegNo) (s : State) : StepResult :=
  complete s (.ok (s.begin.skipIf (!s.keyPressed (s.readV x))))

/-- `Fx0A` LD Vx, K (R186): with a key pressed it completes in its own step; with none it goes to the awaiting-key
state with PC back at A, after this step's one tick (the spec's decision D14, log 20). -/
def execLdVxK (x : RegNo) (s : State) : StepResult :=
  match s.begin.drawKey with
  | some (k, t) => complete s (.ok (t.writeV x k))
  | none => complete s (.ok { s.begin with pc := s.pc, wait := some x, status := .waiting })

/-- `waiting_step(x)` (R187): no fetch and no tick; with a key pressed the suspended `Fx0A` completes, with none nothing
changes. -/
def waitingStep (x : RegNo) (s : State) : State :=
  match s.drawKey with
  | some (k, t) => { t.writeV x k with pc := s.pc + 2, wait := none, status := .ok, intents := [] }
  | none => { s with status := .waiting, intents := [] }

end Sys2Proof.Machine
end

