-- ==== Sys2Proof/Machine/Engine.lean ====
section
/-! DEFINITION. The engine cycle (spec/40_engine.md R91) and the fetch (R92). -/

namespace Sys2Proof.Machine

/-- The fetch (R92): the big-endian word at PC, or AddressError(Fetch, a) when PC + 1 > 0xFFF; no alignment rule
(spec/20_memory.md R54; the spec's decision D22, log 23). -/
def State.fetch (s : State) : Except HaltCause Word :=
  match checkRange .fetch s.pc.toNat 2 with
  | some cause => .error cause
  | none => .ok (s.mem.readWord s.pc.toNat)

/-- What follows the fetch of `op`: the decode error of R94, or the instruction. -/
def executeWord (op : Word) (s : State) : StepResult :=
  match decode op with
  | .error _ => .next (takeDecodeError op s)
  | .ok i => exec i s

/-- A step of a block that neither is halted nor waits. -/
def fetchAndExecute (s : State) : StepResult :=
  match s.fetch with
  | .error cause => .next (takeFatal cause s)
  | .ok op => executeWord op s

/-- `step()` of R91, its branches in the priority of spec/60_exceptions.md R208: halted, waiting, fetch fault, decode
error, the instruction. -/
def engineCycle (s : State) : StepResult :=
  match s.halt with
  | some cause => .next (haltedStep cause s)
  | none =>
    match s.wait with
    | some x => .next (waitingStep x s)
    | none => fetchAndExecute s

/-- The address an instruction placed for the next fetch goes to: PC where the fetch can read there, else the entry
point. -/
def State.fetchAddress (s : State) : Word :=
  if s.pc.toNat + 1 ≤ Config.memTop then s.pc else Config.pcReset

/-- `s` with the word `op` stored where the next step fetches, neither halted nor waiting. -/
def State.placeWord (s : State) (op : Word) : State :=
  { s with
    pc := s.fetchAddress, halt := none, wait := none,
    mem := s.mem.writeBytes s.fetchAddress.toNat (wordBytes op) }

end Sys2Proof.Machine
end

