-- ==== Sys2Proof/Machine/Step.lean ====
section
/-! DEFINITION. One `step()` transaction (spec/40_engine.md R90, R91), and the state with one word placed where it fetches. -/

namespace Sys2Proof.Machine

/-- One engine cycle (R91). -/
def step (s : State) : Host.Outcome State Fault Refusal := engineCycle s

/-- `s` with the opcode-table word `w` of `nbits` bits stored where the next step fetches. It stands for the load of a
program from outside (log 10): a halted or waiting block is set running, and a PC that cannot be fetched from is set
to the entry point. -/
def State.withFetchWord (s : State) (nbits w : Nat) : State := s.placeWord (tableWord nbits w)

end Sys2Proof.Machine
end

