-- ==== Sys2Proof/Machine/Interface.lean ====
section
/-! DEFINITION. The block's interface to the host (spec/10_state.md R40 to R46): the five transactions of R41, issued one at a time
between steps, and reset_load (spec/70_reset_and_hazards.md R231, R232). -/

namespace Sys2Proof.Machine

/-- `reset_load(rom)` (R231): every piece of state reset, FONT loaded, then the ROM at 0x200; a ROM of more than 3584
bytes writes no byte and halts the block (R232; the spec's decision D27, log 34). The draw counter goes on: draws are
inputs, not state (R33). -/
def resetLoad (p : Config.Params) (rom : List Byte) (s : State) : State :=
  if rom.length > Config.maxRom then
    { State.resetWith p with
      draws := s.draws, halt := some (.romTooLarge rom.length), status := .romTooLarge rom.length }
  else
    { State.resetWith p with draws := s.draws, mem := (State.resetWith p).mem.writeBytes Config.progBase rom }

/-- `key_down(k)` (R45). -/
def keyDown (k : KeyNo) (s : State) : State := { s with keys := s.keys ||| BitVec.twoPow Config.numKeys k.val }

/-- `key_up(k)` (R45). -/
def keyUp (k : KeyNo) (s : State) : State := { s with keys := s.keys &&& ~~~BitVec.twoPow Config.numKeys k.val }

/-- The transactions of R41. -/
inductive Transaction where
  | resetLoad (rom : List Byte)
  | step
  | keyDown (k : KeyNo)
  | keyUp (k : KeyNo)
  | observe
  deriving DecidableEq, Repr

/-- What a transaction gives back (R41, R235): a status where it returns one, the display intents of a step, the
`sound_active` level after it where there is a state to read it from, and the whole state where it is `observe()`. -/
structure Response where
  status : Option Status
  intents : List Intent
  soundActive : Option Bool
  view : Option State
  deriving DecidableEq, Repr

/-- The response of a step or a load that left the block in `s`. -/
def report (s : State) : Response := ⟨some s.status, s.intents, some s.soundActive, none⟩

/-- The response of a key transaction: nothing but the level of `sound_active` after it (R44). Before any reset_load
there is no state to read the level from, and the spec states none (R235, D27). DESIGN CHOICE: no level is reported
there (log 37; safe). -/
def silent (b : Option State) : Response := ⟨none, [], b.map State.soundActive, none⟩

/-- One transaction on the block, which is `none` until a first reset_load. `step()` and `observe()` before it are
refused: the spec leaves them undefined (R235, I13; log 27; safe). A key event before it does nothing: DESIGN CHOICE
(log 37; unsafe). -/
def transact (p : Config.Params) (t : Transaction) (b : Option State) : Host.Outcome (Option State × Response) Fault Refusal :=
  match t, b with
  | .resetLoad rom, b =>
    let s := resetLoad p rom (b.getD (State.resetWith p))
    .next (some s, report s)
  | .step, some s =>
    match step s with
    | .next s' => .next (some s', report s')
    | .fault r => .fault r
    | .refused r => .refused r
  | .keyDown k, b => .next (b.map (keyDown k), silent (b.map (keyDown k)))
  | .keyUp k, b => .next (b.map (keyUp k), silent (b.map (keyUp k)))
  | .observe, some s => .next (some s, ⟨none, [], some s.soundActive, some s⟩)
  | .step, none => .refused .beforeResetLoad
  | .observe, none => .refused .beforeResetLoad

/-- A run: the transactions the host issued, in order, with the responses (R230; the spec's decision D31). -/
def runTransactions (p : Config.Params) :
    List Transaction → Option State → Host.Outcome (Option State × List Response) Fault Refusal
  | [], b => .next (b, [])
  | t :: ts, b =>
    match transact p t b with
    | .next (b', r) =>
      match runTransactions p ts b' with
      | .next (b'', rs) => .next (b'', r :: rs)
      | .fault f => .fault f
      | .refused f => .refused f
    | .fault f => .fault f
    | .refused f => .refused f

end Sys2Proof.Machine
end

