-- ==== Sys2Proof/Safety.lean ====
section
/-! DEFINITION. What counts as a safe state, the invariant of the machine, and the terms in which claims say what an
instruction leaves unchanged. -/

namespace Sys2Proof.Machine

/-- A safe state of a run: not halted by a fatal error (spec/60_exceptions.md R205), and no DecodeError recorded (the
premise that the spec's decision D34 asks of a claim). -/
def State.Safe (s : State) : Prop := s.halt = none ∧ s.decodeErrorSeen = false

/-- The invariant every step keeps. -/
structure State.Inv (s : State) : Prop where
  /-- memory is in canonical form, so equal memories are equal lists -/
  memory : s.mem.wf
  /-- PC is at most 0x10FE, the highest target of `Bnnn` (spec/41_control_flow.md R119) -/
  pcBound : s.pc.toNat ≤ 0x10FE
  /-- SP is at most STACK_DEPTH (spec/10_state.md R25) -/
  stackBound : s.sp ≤ s.stackDepth
  /-- a return address in use is at most 0x1000 (R111) -/
  returnBound : ∀ j (_ : j < s.stack.length), j < s.sp → (s.stack[j]).toNat ≤ 0x1000
  /-- a waiting block is not halted, and PC is at the `Fx0A` it waits in (spec/45_timers_input.md R186, R187) -/
  waiting : ∀ x, s.wait = some x →
    s.halt = none ∧ s.pc.toNat ≤ 0xFFE ∧ s.mem.readWord s.pc.toNat = encode (.ldVxK x)

/-! ## Terms of the frame (spec/40_engine.md R102) -/

/-- The timers of `t` are those of `s` after one tick (spec/40_engine.md R96). -/
def Ticked (s t : State) : Prop := t.dt.toNat = s.dt.toNat - 1 ∧ t.st.toNat = s.st.toNat - 1

/-- `t` is `s` after an instruction completed with status Ok and one tick. -/
def Completed (s t : State) : Prop := t.status = .ok ∧ Ticked s t

/-- Every register outside the list is unchanged. -/
def SameRegsBut (written : List RegNo) (s t : State) : Prop := ∀ r, r ∉ written → t.readV r = s.readV r

/-- Every byte of memory reads as before. -/
def SameMemory (s t : State) : Prop := ∀ a, t.mem.read a = s.mem.read a

/-- Every byte of memory outside the `count` bytes from `base` up reads as before. -/
def SameMemoryOutside (base count : Nat) (s t : State) : Prop :=
  ∀ a, a < base ∨ base + count ≤ a → t.mem.read a = s.mem.read a

/-- Every cell of the framebuffer is unchanged. -/
def SameCells (s t : State) : Prop := ∀ c r, t.fb.get c r = s.fb.get c r

/-- The stack pointer and every stack entry are unchanged. -/
def SameStack (s t : State) : Prop := t.sp = s.sp ∧ t.stack = s.stack

/-- The general registers an instruction may write: the rows Vx, V0 and VF of spec/10_state.md R35. -/
def writtenRegs : Instr → List RegNo
  | .cls => []
  | .ret => []
  | .jp _ => []
  | .call _ => []
  | .seImm _ _ => []
  | .sneImm _ _ => []
  | .seReg _ _ => []
  | .ldImm x _ => [x]
  | .addImm x _ => [x]
  | .ldReg x _ => [x]
  | .orReg x _ => [x]
  | .andReg x _ => [x]
  | .xorReg x _ => [x]
  | .addReg x _ => [x, VF]
  | .sub x _ => [x, VF]
  | .shr x _ => [x, VF]
  | .subn x _ => [x, VF]
  | .shl x _ => [x, VF]
  | .sneReg _ _ => []
  | .ldI _ => []
  | .jpV0 _ => []
  | .rnd x _ => [x]
  | .drw _ _ _ => [VF]
  | .skp _ => []
  | .sknp _ => []
  | .ldVxDt x => [x]
  | .ldVxK x => [x]
  | .ldDtVx _ => []
  | .ldStVx _ => []
  | .addI _ => []
  | .ldF _ => []
  | .ldB _ => []
  | .ldMemVx _ => []
  | .ldVxMem x => (List.finRange 16).filter (· ≤ x)

/-- KEYS, WAIT, HALT and the record of decode errors are unchanged. -/
def SameControl (s t : State) : Prop :=
  t.keys = s.keys ∧ t.wait = s.wait ∧ t.halt = s.halt ∧ t.decodeErrorSeen = s.decodeErrorSeen

/-- No draw was taken and no intent emitted. -/
def NoDrawNoIntent (s t : State) : Prop := t.draws = s.draws ∧ t.intents = []

/-- The sprite of `Dxyn` touches the cell (c, r): some sprite bit of 1, at row offset j and bit offset b from the left,
falls on it, its column being Vx + b or that less 64, its row Vy + j (spec/44_display.md R165, R167). -/
def Touches (x y : RegNo) (n : Nat) (s : State) (c : Fin Config.fbWidth) (r : Fin Config.fbHeight) : Prop :=
  ∃ j b : Nat, j < n ∧ b < 8 ∧ (s.mem.read (s.i.toNat + j)).getLsbD (7 - b) = true ∧
    (c.val = (s.readV x).toNat + b ∨ c.val + 64 = (s.readV x).toNat + b) ∧ r.val = (s.readV y).toNat + j

end Sys2Proof.Machine
end

