-- ==== Sys2Proof/Certificates/Slice0/Obligations.lean ====
section
/-! DEFINITION. The statements for the provers. A statement whose docstring says "decision D<n>" rests on a choice that the spec
marks as its own; one that says "log <n>" rests on the model's. -/

open Sys2Proof Sys2Proof.Machine

/-! ## Encoding -/

/-- Every well-formed instruction is what its own word decodes to, with every operand at every value the encoding
admits (spec/30_encoding.md R72, R75, R80), the ignored y of `8xy6` and `8xyE` included, which the model keeps in the
instruction (R76, log 38). -/
def Obligations.DecodeOfEncodeIsTheInstruction : Prop :=
  ∀ i : Instr, i.wf = true → decode (encode i) = .ok i

/-- Every legal word is the word of the instruction it decodes to, which is well-formed: no two words decode to the
same term of `Instr` and no bit is dropped (R75, R80). For `8xy6` and `8xyE`, where every y selects the same instruction
(R76), it holds because the model's terms keep the ignored y, its own choice (log 38). That `5xyN` and `9xyN` with N ≠ 0 are
no legal words is decision D8 (log 33). -/
def Obligations.EncodeOfDecodeIsTheWord : Prop :=
  ∀ (op : Word) (i : Instr), decode op = .ok i → i.wf = true ∧ encode i = op

/-- R75's map is what the decoder does: a word that decodes belongs to the row of its instruction, a row of the table,
and to no other row; every word of a row decodes to an instruction of that row. That the rows of `5xy0` and `9xy0` fix their
low nibble is decision D8 (log 33). -/
def Obligations.DecodeFollowsTheOpcodeMap : Prop :=
  (∀ (op : Word) (i : Instr), decode op = .ok i →
    i.row ∈ opcodeTable ∧ ∀ row ∈ opcodeTable, (op &&& row.mask = row.pattern ↔ row = i.row)) ∧
  (∀ op : Word, ∀ row ∈ opcodeTable, op &&& row.mask = row.pattern → ∃ i, decode op = .ok i ∧ i.row = row)

/-- Words written out from the rows of R75, one or more for each top nibble 0 to F, decode to the instructions they stand
for; the words of 95_test_vectors.md V9 to V11 and W9 are illegal, each in its family (that 0x5121 and 0x912F are is
decision D8, log 33). -/
def Obligations.WordsWrittenOutDecode : Prop :=
  decode 0x00E0 = .ok .cls ∧ decode 0x00EE = .ok .ret ∧ decode 0x1204 = .ok (.jp 0x204) ∧
  decode 0x2ABC = .ok (.call 0xABC) ∧ decode 0x3D2B = .ok (.seImm 13 0x2B) ∧
  decode 0x4D2B = .ok (.sneImm 13 0x2B) ∧ decode 0x5120 = .ok (.seReg 1 2) ∧
  decode 0x6A2B = .ok (.ldImm 10 0x2B) ∧ decode 0x7320 = .ok (.addImm 3 0x20) ∧ decode 0x8F14 = .ok (.addReg 15 1) ∧ decode 0x9120 = .ok (.sneReg 1 2) ∧
  decode 0xA300 = .ok (.ldI 0x300) ∧ decode 0xC30F = .ok (.rnd 3 0x0F) ∧
  decode 0xBFFF = .ok (.jpV0 0xFFF) ∧ decode 0xD015 = .ok (.drw 0 1 5) ∧ decode 0xE29E = .ok (.skp 2) ∧
  decode 0xF265 = .ok (.ldVxMem 2) ∧ decode 0x0123 = .error .family0 ∧
  decode 0x0000 = .error .family0 ∧ decode 0x5121 = .error .family5 ∧
  decode 0x8008 = .error .family8 ∧ decode 0x912F = .error .family9 ∧ decode 0xE000 = .error .familyE ∧
  decode 0xF000 = .error .familyF

/-! ## Reset and the interface -/

/-- What reset leaves, whatever FONT and STACK_DEPTH are (spec/10_state.md R47): the values the source gives (V, PC, memory) and those of the
spec's decision D18 (log 9). Memory is zero but for FONT at 0x000..0x04F (log 5). `State.reset` is the case of the
default FONT (decision D19, log 4), whose glyph A is that of 95_test_vectors.md V104, and of the default STACK_DEPTH, 16
(decision D5, log 14). -/
def Obligations.ResetLeavesTheValuesOfTheTable : Prop :=
  (∀ p : Config.Params, let s := State.resetWith p
    (∀ r, s.readV r = 0) ∧ s.i = 0 ∧ s.pc = 0x200 ∧ s.sp = 0 ∧
    s.stack = List.replicate p.stackDepth 0 ∧ s.dt = 0 ∧ s.st = 0 ∧
    (∀ a, 0x50 ≤ a → s.mem.read a = 0) ∧ (∀ a (h : a < 0x50), s.mem.read a = p.font[a]) ∧
    (∀ c r, s.fb.get c r = false) ∧ (∀ k : KeyNo, s.keys.getLsbD k.val = false) ∧
    s.wait = none ∧ s.halt = none ∧ s.soundActive = false) ∧
  State.reset = State.resetWith Config.standard ∧ State.reset.stackDepth = 16 ∧
  State.reset.mem.readBytes 0x32 5 = [0xF0, 0x90, 0xF0, 0x90, 0x90]

/-- The invariant holds right after reset, whatever FONT and STACK_DEPTH are. It rests on the reset values of decision D18 (SP, WAIT, HALT:
log 9) and on the model's canonical form of memory (log 5). -/
def Obligations.ResetMeetsTheInvariant : Prop := ∀ p : Config.Params, (State.resetWith p).Inv

/-- reset_load, whatever FONT and STACK_DEPTH are (spec/70_reset_and_hazards.md R231, R232; decisions D18 and D27, logs 9 and 34). A ROM of at most 3584 bytes: memory holds it at 0x200
and is as after reset elsewhere, every other field is as after reset, the status is Ok. A longer ROM: no byte of it is
in memory, HALT and the status carry its length, and the next step changes nothing and is fatal. The draw counter goes on
(log 2). -/
def Obligations.ResetLoadPlacesTheRomOrHalts : Prop :=
  ∀ (p : Config.Params) (rom : List Byte) (s : State),
    (rom.length ≤ 3584 →
      (∀ k (h : k < rom.length), (resetLoad p rom s).mem.read (0x200 + k) = rom[k]) ∧
      (∀ a, a < 0x200 ∨ 0x200 + rom.length ≤ a → (resetLoad p rom s).mem.read a = (State.resetWith p).mem.read a) ∧
      resetLoad p rom s = { State.resetWith p with mem := (resetLoad p rom s).mem, draws := s.draws }) ∧
    (3584 < rom.length →
      resetLoad p rom s = { State.resetWith p with
        halt := some (.romTooLarge rom.length), status := .romTooLarge rom.length, draws := s.draws } ∧
      step (resetLoad p rom s) =
        .next { resetLoad p rom s with status := .fatal (.romTooLarge rom.length) })

/-- key_down(k) sets bit k of KEYS and key_up(k) clears it; no other key and no other state changes; each is
idempotent (R45; the 4-bit code is decision D25). -/
def Obligations.KeyTransactionsChangeOneKey : Prop :=
  ∀ (k : KeyNo) (s : State),
    (∀ j : KeyNo, (keyDown k s).keys.getLsbD j.val = (s.keys.getLsbD j.val || decide (j = k))) ∧
    (∀ j : KeyNo, (keyUp k s).keys.getLsbD j.val = (s.keys.getLsbD j.val && !decide (j = k))) ∧
    keyDown k s = { s with keys := (keyDown k s).keys } ∧ keyUp k s = { s with keys := (keyUp k s).keys } ∧
    keyDown k (keyDown k s) = keyDown k s ∧ keyUp k (keyUp k s) = keyUp k s

/-- Whatever transaction the host issues, and whatever FONT and STACK_DEPTH are, on a block that was never loaded or is in a state that
meets the invariant, the block is afterwards in a state that meets it, wherever it is loaded (R41; spec/00_scope.md
R3). A block never loaded is the model's own form (logs 27 and 37); the invariant rests on the model's canonical form of memory
(log 5) and on decisions D5 (log 14), D14 (log 20), D18 (log 9), D28 and D29 (log 36). -/
def Obligations.EveryTransactionKeepsTheInvariant : Prop :=
  ∀ (p : Config.Params) (tr : Transaction) (b b' : Option State) (r : Response),
    (∀ s, b = some s → s.Inv) → transact p tr b = .next (b', r) → ∀ s', b' = some s' → s'.Inv

/-! ## The engine -/

/-- Every step keeps the invariant: memory stays canonical (the model's own form, log 5), PC at most 0x10FE, unwrapped
(decisions D28 and D29, log 36), SP at most STACK_DEPTH (the form of the stack is decision D5, log 14), the return addresses in use at most 0x1000, and a waiting block stands at its own `Fx0A`
(decision D14, log 20) (R23, R111, R119, R186, R187). -/
def Obligations.StepKeepsTheInvariant : Prop :=
  ∀ s t : State, s.Inv → step s = .next t → t.Inv

/-- The word at PC decodes to `i`: the step of a block that neither is halted nor waits is `exec i` at that very state.
The PC advance and the tick are part of `exec` (log 7). That it is so at an odd PC too is decision D22 (log 23). -/
def Obligations.StepRunsTheDecodedInstruction : Prop :=
  ∀ (s : State) (i : Instr), s.halt = none → s.wait = none → s.pc.toNat + 1 ≤ 0xFFF →
    decode (s.mem.read s.pc.toNat ++ s.mem.read (s.pc.toNat + 1)) = .ok i → step s = exec i s

/-- The fetch is big-endian: `op = mem[PC] : mem[PC+1]`, at every PC up to 0xFFE (spec/20_memory.md R52). That it is so
at an odd PC too is decision D22 (R54, log 23). -/
def Obligations.FetchIsBigEndian : Prop :=
  ∀ s : State, s.pc.toNat + 1 ≤ 0xFFF →
    ∃ op, s.fetch = .ok op ∧ op.toNat = 256 * (s.mem.read s.pc.toNat).toNat + (s.mem.read (s.pc.toNat + 1)).toNat

/-- No step blocks: every step answers a next state (R104). -/
def Obligations.EveryStepReturns : Prop := ∀ s : State, ∃ t, step s = .next t

/-- The status of a step tells what it did, as the table of R99 has it. Ok: an instruction ran, or a waiting `Fx0A` found
a key. Waiting: an `Fx0A` was fetched and no key is pressed, so WAIT holds its x, the timers tick and nothing else changes,
PC included; or the block was waiting and nothing changes (decisions D14 and D33, log 20). DecodeError: PC + 2 only
(decision D7; the sticky record is log 8). Fatal: the state of the start of the step, with HALT (decision D6, log 6). An odd
PC fetches like any other (decision D22, log 23). -/
def Obligations.StatusOfAStepTellsItsEffect : Prop :=
  ∀ s t : State, step s = .next t →
    match t.status with
    | .ok =>
      s.halt = none ∧ t.halt = none ∧ t.wait = none ∧
        (s.wait = none → ∃ op i, s.fetch = .ok op ∧ decode op = .ok i ∧ exec i s = .next t) ∧
        (s.wait ≠ none → s.keys ≠ 0)
    | .waiting =>
      s.halt = none ∧ s.keys = 0 ∧
        (s.wait = none → ∃ op x, s.fetch = .ok op ∧ decode op = .ok (.ldVxK x) ∧ Ticked s t ∧
          t = { s with dt := t.dt, st := t.st, wait := some x, status := .waiting, intents := [] }) ∧
        (s.wait ≠ none → t = { s with status := .waiting, intents := [] })
    | .decodeError op a =>
      a = s.pc ∧ s.fetch = .ok op ∧ (∃ why, decode op = .error why) ∧
        t = { s with pc := s.pc + 2, status := .decodeError op a, intents := [], decodeErrorSeen := true }
    | .fatal cause =>
      t = { s with halt := some cause, status := .fatal cause, intents := [] }
    | .romTooLarge _ => False

/-- The timers tick exactly once in a step that fetches a legal opcode and whose handler is not fatal (the timer that
`Fx15` or `Fx18` writes aside), and not at all in any other step (R96). That it does not tick in a waiting step is decision
D14 (conflict C4, log 20), in a decode-error step D7 (log 8), in a halted or fatal step D6 (log 6). An odd PC fetches like any other (decision D22,
log 23). -/
def Obligations.TimersTickInLegalStepsOnly : Prop :=
  ∀ s t : State, step s = .next t →
    (∀ op i, s.halt = none → s.wait = none → s.fetch = .ok op → decode op = .ok i → t.halt = none →
      ((∀ x, i ≠ .ldDtVx x) → t.dt.toNat = s.dt.toNat - 1) ∧
      ((∀ x, i ≠ .ldStVx x) → t.st.toNat = s.st.toNat - 1)) ∧
    ((s.halt ≠ none ∨ s.wait ≠ none ∨ (∃ c, s.fetch = .error c) ∨
        (∃ op why, s.fetch = .ok op ∧ decode op = .error why) ∨ t.halt ≠ none) →
      t.dt = s.dt ∧ t.st = s.st)

/-- A halted block changes nothing and answers the same Fatal again (R101, decision D6). A PC past 0xFFE faults at the
fetch: AddressError(Fetch, PC), or PC + 1 when only that is outside, with nothing else changed (R92; decisions D2 and
D6). That an odd PC is no fault of its own is decision D22 (log 23). -/
def Obligations.HaltedAndFetchFaultStepsAreFatal : Prop :=
  (∀ (s : State) (cause : HaltCause), s.halt = some cause →
    step s = .next { s with status := .fatal cause, intents := [] }) ∧
  (∀ s : State, s.halt = none → s.wait = none → 0xFFF < s.pc.toNat + 1 →
    let addr := if 0xFFF < s.pc.toNat then s.pc.toNat else s.pc.toNat + 1
    step s = .next { s with
      halt := some (.addressError .fetch addr), status := .fatal (.addressError .fetch addr), intents := [] })

/-- An illegal opcode: PC + 2, no tick, nothing else, not halted, the opcode and its address reported (R94; decision
D7; the sticky record is log 8). That it is so at an odd PC too is decision D22 (log 23). -/
def Obligations.DecodeErrorAdvancesPcOnly : Prop :=
  ∀ (s : State) (why : Illegal), s.halt = none → s.wait = none → s.pc.toNat + 1 ≤ 0xFFF →
    decode (s.mem.read s.pc.toNat ++ s.mem.read (s.pc.toNat + 1)) = .error why →
    step s = .next { s with
      pc := s.pc + 2, intents := [], decodeErrorSeen := true,
      status := .decodeError (s.mem.read s.pc.toNat ++ s.mem.read (s.pc.toNat + 1)) s.pc }

/-- Who writes what, for each row of R35's table (decision D10, log 16): a register only the instructions of the rows Vx,
V0 and VF (`writtenRegs`); memory only `Fx33` and `Fx55`; the framebuffer only `00E0` and `Dxyn`; the stack and SP only
`2nnn` and `00EE`, STACK_DEPTH none; I only `Annn`, `Fx1E` and `Fx29`; DT and ST, their tick aside, only `Fx15` and `Fx18`; PC, its advance
aside, only `00EE`, `1nnn`, `2nnn`, `Bnnn`, the skips, `Fx0A` and a fatal outcome; HALT only a fatal outcome, of the six
instructions that have one (decision D6, log 6); WAIT only `Fx0A`; KEYS none. Besides, only `Cxkk` and `Fx0A` draw (R97, the counter of logs 2
and 3), only `00E0` and `Dxyn` emit intents (R100), and none changes the record of decode errors (log 8). -/
def Obligations.OnlyTheListedInstructionsWriteEachField : Prop :=
  ∀ (i : Instr) (s t : State), exec i s = .next t →
    SameRegsBut (writtenRegs i) s t ∧
    ((∀ x, i ≠ .ldDtVx x) → t.dt.toNat = s.dt.toNat - 1 ∨ t.dt = s.dt) ∧
    ((∀ x, i ≠ .ldStVx x) → t.st.toNat = s.st.toNat - 1 ∨ t.st = s.st) ∧
    (i ≠ .ret → (∀ nnn, i ≠ .jp nnn) → (∀ nnn, i ≠ .call nnn) → (∀ nnn, i ≠ .jpV0 nnn) →
      (∀ x kk, i ≠ .seImm x kk) → (∀ x kk, i ≠ .sneImm x kk) → (∀ x y, i ≠ .seReg x y) → (∀ x y, i ≠ .sneReg x y) →
      (∀ x, i ≠ .skp x) → (∀ x, i ≠ .sknp x) → (∀ x, i ≠ .ldVxK x) →
      t.pc = s.pc + 2 ∨ ∃ cause, t.status = .fatal cause ∧ t.pc = s.pc) ∧
    (t.halt = s.halt ∨ ∃ cause, t = { s with halt := some cause, status := .fatal cause, intents := [] }) ∧
    (i ≠ .ret → (∀ nnn, i ≠ .call nnn) → (∀ x y n, i ≠ .drw x y n) → (∀ x, i ≠ .ldB x) → (∀ x, i ≠ .ldMemVx x) →
      (∀ x, i ≠ .ldVxMem x) → t.halt = s.halt) ∧
    ((∀ x, i ≠ .ldB x) → (∀ x, i ≠ .ldMemVx x) → t.mem = s.mem) ∧
    (i ≠ .cls → (∀ x y n, i ≠ .drw x y n) → t.fb = s.fb ∧ t.intents = []) ∧
    ((∀ nnn, i ≠ .call nnn) → i ≠ .ret → t.stack = s.stack ∧ t.sp = s.sp) ∧
    t.stack.length = s.stack.length ∧
    ((∀ nnn, i ≠ .ldI nnn) → (∀ x, i ≠ .addI x) → (∀ x, i ≠ .ldF x) → t.i = s.i) ∧
    ((∀ x, i ≠ .ldVxK x) → t.wait = s.wait) ∧
    ((∀ x kk, i ≠ .rnd x kk) → (∀ x, i ≠ .ldVxK x) → t.draws = s.draws) ∧
    t.keys = s.keys ∧ t.decodeErrorSeen = s.decodeErrorSeen

/-- KEYS is mutated by the host alone: no step changes it (R30). -/
def Obligations.NoStepChangesKeys : Prop :=
  ∀ s t : State, step s = .next t → t.keys = s.keys

/-- Nothing reads ST: given the same draws (R103), two states that differ in ST alone step to two states that differ in ST
alone (R27). The two have the same draw counter and so take the same draws: the model's form of them, logs 2 and 3. -/
def Obligations.NothingReadsTheSoundTimer : Prop :=
  ∀ (s : State) (st : Byte), ∃ t u, step s = .next t ∧ step { s with st := st } = .next u ∧
    u = { t with st := u.st }

/-! ## Memory -/

/-- Two canonical memories that read the same everywhere are the same list. The list and its canonical form are the
model's own (log 5): the spec says only that there are 4096 bytes (R50). -/
def Obligations.CanonicalMemoriesThatReadAlikeAreEqual : Prop :=
  ∀ m m' : Memory, m.wf → m'.wf → (∀ a, m.read a = m'.read a) → m = m'

/-- A byte written by `Fx55` is seen by the fetch of the very next step: a store of V0 and V1 over the next instruction
is what is fetched next (spec/20_memory.md R62, decision D23; at an odd PC also decision D22, log 23). -/
def Obligations.StoreIsSeenByTheNextFetch : Prop :=
  ∀ (x : RegNo) (s : State), s.mem.wf → s.pc.toNat + 2 ≤ 0xFFE → s.i = s.pc + 2 → 1 ≤ x.val →
    s.i.toNat + x.val ≤ 0xFFF →
    ∃ t, exec (.ldMemVx x) s = .next t ∧ t.fetch = .ok (s.readV 0 ++ s.readV 1)

/-- `Fx33`, `Fx55`, `Fx65` and `Dxyn` with a byte address above 0xFFF: AddressError of the kind and the lowest offending
address, no byte, register or cell changed, the tick undone (spec/20_memory.md R53, R56; decisions D2 and D6; for `Dxyn` also decision D13, log 19). -/
def Obligations.DataAccessPastTheEndIsFatal : Prop :=
  ∀ (x y : RegNo) (n : Nat) (s : State),
    let raised (kind : AccessKind) : State :=
      { s with
        halt := some (.addressError kind (max s.i.toNat 0x1000)),
        status := .fatal (.addressError kind (max s.i.toNat 0x1000)), intents := [] }
    (0xFFF < s.i.toNat + 2 → exec (.ldB x) s = .next (raised .write)) ∧
    (0xFFF < s.i.toNat + x.val → exec (.ldMemVx x) s = .next (raised .write)) ∧
    (0xFFF < s.i.toNat + x.val → exec (.ldVxMem x) s = .next (raised .read)) ∧
    (0 < n → 0xFFF < s.i.toNat + n - 1 → exec (.drw x y n) s = .next (raised .read))

/-! ## Control flow -/

/-- `1nnn`: PC ← nnn, zero-extended; no flag, no exception (spec/41_control_flow.md R112). -/
def Obligations.JumpSetsPc : Prop :=
  ∀ (nnn : BitVec 12) (s : State), ∃ t, exec (.jp nnn) s = .next t ∧ t.pc.toNat = nnn.toNat ∧
    SameRegsBut [] s t ∧ Completed s t

/-- `3xkk`, `4xkk`, `5xy0`, `9xy0`: PC at A + 4 when the comparison holds, else at A + 2; no flag, no exception (R115 to
R118). -/
def Obligations.ComparisonsSkipOneInstruction : Prop :=
  ∀ (x y : RegNo) (kk : Byte) (s : State),
    (∃ t, exec (.seImm x kk) s = .next t ∧ t.pc = (if s.readV x = kk then s.pc + 4 else s.pc + 2) ∧
      SameRegsBut [] s t ∧ Completed s t) ∧
    (∃ t, exec (.sneImm x kk) s = .next t ∧ t.pc = (if s.readV x ≠ kk then s.pc + 4 else s.pc + 2) ∧
      SameRegsBut [] s t ∧ Completed s t) ∧
    (∃ t, exec (.seReg x y) s = .next t ∧
      t.pc = (if s.readV x = s.readV y then s.pc + 4 else s.pc + 2) ∧ SameRegsBut [] s t ∧ Completed s t) ∧
    (∃ t, exec (.sneReg x y) s = .next t ∧
      t.pc = (if s.readV x ≠ s.readV y then s.pc + 4 else s.pc + 2) ∧ SameRegsBut [] s t ∧ Completed s t)

/-- `Ex9E` skips when the key whose code is in Vx is pressed, `ExA1` when it is not; a Vx above 0xF names no key
(spec/45_timers_input.md R184, R185; decision D16). -/
def Obligations.KeySkipsTestTheLevelOfKeys : Prop :=
  ∀ (x : RegNo) (s : State),
    (∃ t, exec (.skp x) s = .next t ∧ Completed s t ∧
      ((∃ k : KeyNo, (s.readV x).toNat = k.val ∧ s.keys.getLsbD k.val = true) → t.pc = s.pc + 4) ∧
      (¬(∃ k : KeyNo, (s.readV x).toNat = k.val ∧ s.keys.getLsbD k.val = true) → t.pc = s.pc + 2)) ∧
    (∃ t, exec (.sknp x) s = .next t ∧ Completed s t ∧
      ((∃ k : KeyNo, (s.readV x).toNat = k.val ∧ s.keys.getLsbD k.val = true) → t.pc = s.pc + 2) ∧
      (¬(∃ k : KeyNo, (s.readV x).toNat = k.val ∧ s.keys.getLsbD k.val = true) → t.pc = s.pc + 4))

/-- `Bnnn`: PC ← nnn + V0, exactly, at most 0x10FE; never an error in its own step (R119; decision D29). -/
def Obligations.JumpPlusV0AddsExactly : Prop :=
  ∀ (nnn : BitVec 12) (s : State), ∃ t, exec (.jpV0 nnn) s = .next t ∧
    t.pc.toNat = nnn.toNat + (s.readV 0).toNat ∧ t.pc.toNat ≤ 0x10FE ∧ Completed s t

/-- `2nnn` with room on the stack pushes A + 2, raises SP and jumps to nnn, with no flag; with the stack at its depth,
STACK_DEPTH, it is StackOverflow (R113). STACK_DEPTH is whatever the reset gave (log 14). -/
def Obligations.CallPushesTheAdvancedPc : Prop :=
  ∀ (nnn : BitVec 12) (s : State),
    (s.sp < s.stackDepth → ∃ t, exec (.call nnn) s = .next t ∧ t.pc.toNat = nnn.toNat ∧
      t.sp = s.sp + 1 ∧ t.stack[s.sp]? = some (s.pc + 2) ∧ SameRegsBut [] s t ∧ Completed s t) ∧
    (s.sp = s.stackDepth → ∃ t, exec (.call nnn) s = .next t ∧ t.status = .fatal .stackOverflow)

/-- `00EE` lowers SP and sets PC to the entry popped, which keeps its value, with no flag; with the stack empty it is
StackUnderflow (R111). That SP is at most STACK_DEPTH is a part of the invariant (`State.Inv`). -/
def Obligations.ReturnPopsIntoPc : Prop :=
  ∀ s : State,
    (0 < s.sp → s.sp ≤ s.stackDepth → ∃ t, exec .ret s = .next t ∧ s.stack[s.sp - 1]? = some t.pc ∧
      t.sp = s.sp - 1 ∧ t.stack = s.stack ∧ SameRegsBut [] s t ∧ Completed s t) ∧
    (s.sp = 0 → ∃ t, exec .ret s = .next t ∧ t.status = .fatal .stackUnderflow)

/-- The frame of the jumps and skips: PC and the timers aside, nothing changes (R102, decision D10). -/
def Obligations.JumpsAndSkipsChangeOnlyPc : Prop :=
  ∀ (x y : RegNo) (kk : Byte) (nnn : BitVec 12) (s t : State),
    (exec (.jp nnn) s = .next t ∨ exec (.jpV0 nnn) s = .next t ∨ exec (.seImm x kk) s = .next t ∨
      exec (.sneImm x kk) s = .next t ∨ exec (.seReg x y) s = .next t ∨ exec (.sneReg x y) s = .next t ∨
      exec (.skp x) s = .next t ∨ exec (.sknp x) s = .next t) →
    SameRegsBut [] s t ∧ t.i = s.i ∧ SameStack s t ∧ SameMemory s t ∧ SameCells s t ∧ SameControl s t ∧
      NoDrawNoIntent s t ∧ Ticked s t

/-- The frame of call and return that complete: no register, no I, no byte, no cell; a call writes no entry but the
one at the old SP, a return none (R102, R114; decision D10). -/
def Obligations.CallAndReturnChangeOnlyPcAndStack : Prop :=
  ∀ (nnn : BitVec 12) (s t : State), t.halt = none →
    ((exec (.call nnn) s = .next t → ∀ j : Nat, j ≠ s.sp → t.stack[j]? = s.stack[j]?) ∧
      (exec .ret s = .next t → t.stack = s.stack) ∧
      (exec (.call nnn) s = .next t ∨ exec .ret s = .next t →
        SameRegsBut [] s t ∧ t.i = s.i ∧ SameMemory s t ∧ SameCells s t ∧ SameControl s t ∧ NoDrawNoIntent s t ∧
          Ticked s t))

/-! ## Registers and arithmetic -/

/-- `6xkk`: Vx ← kk. `8xy0`: Vx ← Vy. No flag: only Vx is written (spec/42_alu.md R131, R133). -/
def Obligations.LoadsSetTheRegister : Prop :=
  ∀ (x y : RegNo) (kk : Byte) (s : State),
    (∃ t, exec (.ldImm x kk) s = .next t ∧ t.readV x = kk ∧ SameRegsBut [x] s t ∧ t.pc = s.pc + 2 ∧ Completed s t) ∧
    (∃ t, exec (.ldReg x y) s = .next t ∧ t.readV x = s.readV y ∧ SameRegsBut [x] s t ∧ t.pc = s.pc + 2 ∧
      Completed s t)

/-- `7xkk`: Vx ← (Vx + kk) mod 256. `8xy1`, `8xy2`, `8xy3`: bit by bit OR, AND, XOR of the old Vx and Vy. VF is changed only
as the destination (R132, R134 to R136; decision D10). -/
def Obligations.AddImmediateAndLogicResults : Prop :=
  ∀ (x y : RegNo) (kk : Byte) (s : State),
    (∃ t, exec (.addImm x kk) s = .next t ∧ (t.readV x).toNat = ((s.readV x).toNat + kk.toNat) % 256 ∧
      (x ≠ VF → t.readV VF = s.readV VF) ∧ t.pc = s.pc + 2 ∧ Completed s t) ∧
    (∃ t, exec (.orReg x y) s = .next t ∧
      (∀ b, (t.readV x).getLsbD b = ((s.readV x).getLsbD b || (s.readV y).getLsbD b)) ∧
      (x ≠ VF → t.readV VF = s.readV VF) ∧ t.pc = s.pc + 2 ∧ Completed s t) ∧
    (∃ t, exec (.andReg x y) s = .next t ∧
      (∀ b, (t.readV x).getLsbD b = ((s.readV x).getLsbD b && (s.readV y).getLsbD b)) ∧
      (x ≠ VF → t.readV VF = s.readV VF) ∧ t.pc = s.pc + 2 ∧ Completed s t) ∧
    (∃ t, exec (.xorReg x y) s = .next t ∧
      (∀ b, (t.readV x).getLsbD b = ((s.readV x).getLsbD b ^^ (s.readV y).getLsbD b)) ∧
      (x ≠ VF → t.readV VF = s.readV VF) ∧ t.pc = s.pc + 2 ∧ Completed s t)

/-- `8xy4`: Vx ← sum mod 256, also when x or y is F; VF is the carry, sum > 255, unless x = F (R137, R143; decision
D9). -/
def Obligations.AddRegistersWithCarry : Prop :=
  ∀ (x y : RegNo) (s : State), ∃ t, exec (.addReg x y) s = .next t ∧
    (t.readV x).toNat = ((s.readV x).toNat + (s.readV y).toNat) % 256 ∧
    (x ≠ VF → t.readV VF = if (s.readV x).toNat + (s.readV y).toNat > 255 then 1 else 0) ∧
    t.pc = s.pc + 2 ∧ Completed s t

/-- `8xy5` and `8xy7`: the difference modulo 256, also when x or y is F; VF is 1 exactly when the minuend is strictly
greater, unless x = F (R138, R140, R143; decision D9). -/
def Obligations.SubtractionsWithStrictFlag : Prop :=
  ∀ (x y : RegNo) (s : State),
    (∃ t, exec (.sub x y) s = .next t ∧
      ((t.readV x).toNat : Int) = ((s.readV x).toNat - (s.readV y).toNat : Int) % 256 ∧
      (x ≠ VF → t.readV VF = if (s.readV x).toNat > (s.readV y).toNat then 1 else 0) ∧
      t.pc = s.pc + 2 ∧ Completed s t) ∧
    (∃ t, exec (.subn x y) s = .next t ∧
      ((t.readV x).toNat : Int) = ((s.readV y).toNat - (s.readV x).toNat : Int) % 256 ∧
      (x ≠ VF → t.readV VF = if (s.readV y).toNat > (s.readV x).toNat then 1 else 0) ∧
      t.pc = s.pc + 2 ∧ Completed s t)

/-- `8xy6`: Vx halved, VF the old bit 0; `8xyE`: Vx doubled modulo 256, VF the old bit 7; with x = F the result is what
VF holds (R139, R141, R143; decision D9). -/
def Obligations.ShiftsWithTheBitShiftedOut : Prop :=
  ∀ (x y : RegNo) (s : State),
    (∃ t, exec (.shr x y) s = .next t ∧ (t.readV x).toNat = (s.readV x).toNat / 2 ∧
      (x ≠ VF → (t.readV VF).toNat = (s.readV x).toNat % 2) ∧ t.pc = s.pc + 2 ∧ Completed s t) ∧
    (∃ t, exec (.shl x y) s = .next t ∧ (t.readV x).toNat = 2 * (s.readV x).toNat % 256 ∧
      (x ≠ VF → (t.readV VF).toNat = (s.readV x).toNat / 128) ∧ t.pc = s.pc + 2 ∧ Completed s t)

/-- `Cxkk`: Vx is the free byte of this draw masked by kk, so it has no bit that kk lacks; every other register is
unchanged; nothing else changes but PC, the timers and the draw counter (R142; decisions D10 and D20, log 2). -/
def Obligations.RandomByteIsMasked : Prop :=
  ∀ (x : RegNo) (kk : Byte) (s : State), ∃ t, exec (.rnd x kk) s = .next t ∧
    t.readV x = (Config.randByte s.draws &&& kk) ∧ t.readV x &&& ~~~kk = 0 ∧ t.draws = s.draws + 1 ∧
    t.pc = s.pc + 2 ∧ Completed s t ∧ SameRegsBut [x] s t ∧ t.i = s.i ∧ SameStack s t ∧ SameMemory s t ∧
    SameCells s t ∧ SameControl s t ∧ t.intents = []

/-- The frame of the instructions that write Vx and no flag: only Vx, PC and the timers change (R102, decision D10). -/
def Obligations.RegisterInstructionsChangeOnlyVx : Prop :=
  ∀ (x y : RegNo) (kk : Byte) (s t : State),
    (exec (.ldImm x kk) s = .next t ∨ exec (.addImm x kk) s = .next t ∨ exec (.ldReg x y) s = .next t ∨
      exec (.orReg x y) s = .next t ∨ exec (.andReg x y) s = .next t ∨ exec (.xorReg x y) s = .next t ∨
      exec (.ldVxDt x) s = .next t) →
    SameRegsBut [x] s t ∧ t.i = s.i ∧ SameStack s t ∧ SameMemory s t ∧ SameCells s t ∧ SameControl s t ∧
      NoDrawNoIntent s t ∧ Ticked s t

/-- The frame of the instructions that write Vx and VF: only those two, PC and the timers change (R102, R143; decision
D10). -/
def Obligations.FlagInstructionsChangeOnlyVxAndVF : Prop :=
  ∀ (x y : RegNo) (s t : State),
    (exec (.addReg x y) s = .next t ∨ exec (.sub x y) s = .next t ∨ exec (.shr x y) s = .next t ∨
      exec (.subn x y) s = .next t ∨ exec (.shl x y) s = .next t) →
    SameRegsBut [x, VF] s t ∧ t.i = s.i ∧ SameStack s t ∧ SameMemory s t ∧ SameCells s t ∧ SameControl s t ∧
      NoDrawNoIntent s t ∧ Ticked s t

/-! ## Index and memory -/

/-- `Annn`: I ← nnn, zero-extended; no flag (spec/43_index_memory.md R151). -/
def Obligations.LoadIndexSetsI : Prop :=
  ∀ (nnn : BitVec 12) (s : State), ∃ t, exec (.ldI nnn) s = .next t ∧ t.i.toNat = nnn.toNat ∧
    SameRegsBut [] s t ∧ t.pc = s.pc + 2 ∧ Completed s t

/-- `Fx1E`: I ← (I + Vx) mod 2^16; `Fx29`: I ← 5·Vx, unmasked; neither is ever an error (R152, R153; decisions D3 and
D4). -/
def Obligations.IndexArithmeticResults : Prop :=
  ∀ (x : RegNo) (s : State),
    (∃ t, exec (.addI x) s = .next t ∧ t.i.toNat = (s.i.toNat + (s.readV x).toNat) % 65536 ∧
      t.pc = s.pc + 2 ∧ Completed s t) ∧
    (∃ t, exec (.ldF x) s = .next t ∧ t.i.toNat = 5 * (s.readV x).toNat ∧ t.pc = s.pc + 2 ∧ Completed s t)

/-- The frame of `Annn`, `Fx1E` and `Fx29`: only I, PC and the timers change, VF included among the unchanged (R102;
decision D10). -/
def Obligations.IndexInstructionsChangeOnlyI : Prop :=
  ∀ (x : RegNo) (nnn : BitVec 12) (s t : State),
    (exec (.ldI nnn) s = .next t ∨ exec (.addI x) s = .next t ∨ exec (.ldF x) s = .next t) →
    SameRegsBut [] s t ∧ SameStack s t ∧ SameMemory s t ∧ SameCells s t ∧ SameControl s t ∧ NoDrawNoIntent s t ∧
      Ticked s t

/-- `Fx33` inside memory: the hundreds, tens and units of Vx at I, I + 1, I + 2 (R154; the range check is decision
D2). The three digits, each at most 9, sum up to Vx. -/
def Obligations.BcdStoresTheThreeDigits : Prop :=
  ∀ (x : RegNo) (s : State), s.mem.wf → s.i.toNat + 2 ≤ 0xFFF →
    ∃ t, exec (.ldB x) s = .next t ∧
      100 * (t.mem.read s.i.toNat).toNat + 10 * (t.mem.read (s.i.toNat + 1)).toNat +
        (t.mem.read (s.i.toNat + 2)).toNat = (s.readV x).toNat ∧
      (t.mem.read s.i.toNat).toNat ≤ 2 ∧ (t.mem.read (s.i.toNat + 1)).toNat ≤ 9 ∧
      (t.mem.read (s.i.toNat + 2)).toNat ≤ 9 ∧ t.pc = s.pc + 2 ∧ Completed s t

/-- `Fx55` inside memory: V0..Vx at I..I + x (R155; the range check is decision D2). -/
def Obligations.StoreBlockCopiesTheRegisters : Prop :=
  ∀ (x : RegNo) (s : State), s.mem.wf → s.i.toNat + x.val ≤ 0xFFF →
    ∃ t, exec (.ldMemVx x) s = .next t ∧ (∀ r : RegNo, r ≤ x → t.mem.read (s.i.toNat + r.val) = s.readV r) ∧
      t.pc = s.pc + 2 ∧ Completed s t

/-- `Fx65` inside memory: mem[I]..mem[I + x] in V0..Vx; the registers above x, I, the stack, memory and cells are
unchanged (R156; decisions D2, D10 and D11). -/
def Obligations.LoadBlockCopiesTheBytes : Prop :=
  ∀ (x : RegNo) (s : State), s.i.toNat + x.val ≤ 0xFFF →
    ∃ t, exec (.ldVxMem x) s = .next t ∧ (∀ r : RegNo, r ≤ x → t.readV r = s.mem.read (s.i.toNat + r.val)) ∧
      (∀ r : RegNo, x < r → t.readV r = s.readV r) ∧ t.i = s.i ∧ t.pc = s.pc + 2 ∧ Completed s t ∧ SameStack s t ∧
      SameMemory s t ∧ SameCells s t ∧ SameControl s t ∧ NoDrawNoIntent s t

/-- The frame of the stores `Fx33` and `Fx55` that complete: every byte outside the 3, or x + 1, bytes from the data
address up reads as before; no register, not I, no stack entry, no cell changes (R102, R157; decisions D10 and D11).
`State.dataAddress` is the expression the meanings use. -/
def Obligations.StoresChangeOnlyTheirBytes : Prop :=
  ∀ (x : RegNo) (s t : State), s.mem.wf → t.halt = none →
    (exec (.ldB x) s = .next t → SameMemoryOutside s.dataAddress 3 s t) ∧
    (exec (.ldMemVx x) s = .next t → SameMemoryOutside s.dataAddress (x.val + 1) s t) ∧
    (exec (.ldB x) s = .next t ∨ exec (.ldMemVx x) s = .next t →
      SameRegsBut [] s t ∧ t.i = s.i ∧ SameStack s t ∧ SameCells s t ∧ SameControl s t ∧ NoDrawNoIntent s t ∧
        Ticked s t)

/-- `Fx55`, then, from any state with the same memory and the same I, `Fx65` with the same x: V0..Vx are what they were
before the store (R155, R156, 95_test_vectors.md W5; decisions D2 and D11). -/
def Obligations.StoreThenLoadRestoresTheRegisters : Prop :=
  ∀ (x : RegNo) (s : State), s.mem.wf → s.i.toNat + x.val ≤ 0xFFF →
    ∃ t, exec (.ldMemVx x) s = .next t ∧ ∀ u : State, u.mem = t.mem → u.i = t.i →
      ∃ w, exec (.ldVxMem x) u = .next w ∧ ∀ r : RegNo, r ≤ x → w.readV r = s.readV r

/-! ## Display -/

/-- `00E0`: every cell unlit, one `clear()` intent; no register, VF included, no byte, nothing else changes but PC and
the timers (spec/44_display.md R166; decisions D10 and D24). -/
def Obligations.ClearUnlightsEveryCell : Prop :=
  ∀ s : State, ∃ t, exec .cls s = .next t ∧ (∀ c r, t.fb.get c r = false) ∧ t.intents = [.clear] ∧
    t.pc = s.pc + 2 ∧ Completed s t ∧ SameRegsBut [] s t ∧ t.i = s.i ∧ SameStack s t ∧ SameMemory s t ∧
    SameControl s t ∧ t.draws = s.draws

/-- `Dxyn` inside memory: exactly the cells the sprite touches are inverted, once each, and VF is 1 exactly when one of
them was lit, else 0, whatever x and y are (R167, R168, R170; decisions D2, D12 and D13). -/
def Obligations.DrawInvertsTheTouchedCells : Prop :=
  ∀ (x y : RegNo) (n : Nat) (s : State), n = 0 ∨ s.i.toNat + n - 1 ≤ 0xFFF →
    ∃ t, exec (.drw x y n) s = .next t ∧
      (∀ c r, Touches x y n s c r → t.fb.get c r = !s.fb.get c r) ∧
      (∀ c r, ¬Touches x y n s c r → t.fb.get c r = s.fb.get c r) ∧
      ((∃ c r, Touches x y n s c r ∧ s.fb.get c r = true) → t.readV VF = 1) ∧
      (¬(∃ c r, Touches x y n s c r ∧ s.fb.get c r = true) → t.readV VF = 0) ∧
      t.pc = s.pc + 2 ∧ Completed s t

/-- The intents of a draw inside memory: one `set(c, r, lit)` with the cell's new value for every cell it toggles, row
offset j ascending, then bit offset b ascending; a bit of 0 emits nothing (R169; `place` is R167). That a clipped bit emits
nothing is decision D12 (log 18); one `set` for each toggled cell, in toggle order, is decision D24 (log 25). For x = F or
y = F the coordinates are the old VF (R170, decision D13, log 19). -/
def Obligations.DrawEmitsOneIntentPerToggle : Prop :=
  ∀ (x y : RegNo) (n : Nat) (s t : State), n = 0 ∨ s.i.toNat + n - 1 ≤ 0xFFF → exec (.drw x y n) s = .next t →
    t.intents = (List.range n).flatMap fun j => (List.range 8).filterMap fun b =>
      if (s.mem.read (s.i.toNat + j)).getLsbD (7 - b) then
        (place (s.readV x).toNat (s.readV y).toNat b j).map fun p => .setPixel p.1 p.2 (t.fb.get p.1 p.2)
      else none

/-- The frame of a draw that completes: only VF, the cells, the intents, PC and the timers change (R170 "no other state
change"; decision D10). -/
def Obligations.DrawChangesOnlyCellsAndVF : Prop :=
  ∀ (x y : RegNo) (n : Nat) (s t : State), t.halt = none → exec (.drw x y n) s = .next t →
    SameRegsBut [VF] s t ∧ t.i = s.i ∧ SameStack s t ∧ SameMemory s t ∧ SameControl s t ∧ t.draws = s.draws ∧
      Ticked s t

/-- The same draw twice, at the same coordinates, restores every cell; the second reports a collision exactly when
some touched cell was unlit before the first, so, where the first draw reported none, exactly when the sprite touches a
cell (R167, R168, R170; which cells are touched rests on the clipping of decision D12, log 18, and for x = F or y = F on
the old VF as a coordinate, decision D13, log 19). R171's own words for the second claim leave out the condition: see
log 32. -/
def Obligations.DrawingTwiceRestoresTheFramebuffer : Prop :=
  ∀ (x y : RegNo) (n : Nat) (s t : State), n = 0 ∨ s.i.toNat + n - 1 ≤ 0xFFF → exec (.drw x y n) s = .next t →
    t.readV x = s.readV x → t.readV y = s.readV y →
    ∃ u, exec (.drw x y n) t = .next u ∧ (∀ c r, u.fb.get c r = s.fb.get c r) ∧
      (u.readV VF = 1 ↔ ∃ c r, Touches x y n s c r ∧ s.fb.get c r = false) ∧
      (t.readV VF = 0 → (u.readV VF = 1 ↔ ∃ c r, Touches x y n s c r))

/-- R171's second sentence as it stands, on any framebuffer: expected to FAIL, since a touched cell that was lit before
the first draw is unlit at the second (log 32). Which cells are touched rests on decision D12 (log 18), and for
x = F or y = F on decision D13 (log 19). -/
def Obligations.SecondDrawCollidesIffSomeBitIsUnclipped : Prop :=
  ∀ (x y : RegNo) (n : Nat) (s t u : State), n = 0 ∨ s.i.toNat + n - 1 ≤ 0xFFF →
    exec (.drw x y n) s = .next t → t.readV x = s.readV x → t.readV y = s.readV y → exec (.drw x y n) t = .next u →
    (u.readV VF = 1 ↔ ∃ c r, Touches x y n s c r)

/-! ## Timers and input -/

/-- `Fx07`: Vx ← DT as the step's tick left it. `Fx15`: DT ← Vx, not decremented in this step (spec/45_timers_input.md R181,
R182). -/
def Obligations.DelayTimerTransfers : Prop :=
  ∀ (x : RegNo) (s : State),
    (∃ t, exec (.ldVxDt x) s = .next t ∧ (t.readV x).toNat = s.dt.toNat - 1 ∧ t.pc = s.pc + 2 ∧ Completed s t) ∧
    (∃ t, exec (.ldDtVx x) s = .next t ∧ t.dt = s.readV x ∧ t.pc = s.pc + 2 ∧ t.status = .ok)

/-- `Fx18`: ST ← Vx, every value honoured; `sound_active` is then true exactly when the value is not 0 (R183;
decisions D17 and D32). -/
def Obligations.SoundTimerIsSet : Prop :=
  ∀ (x : RegNo) (s : State), ∃ t, exec (.ldStVx x) s = .next t ∧ t.st = s.readV x ∧
    (t.soundActive = true ↔ (s.readV x).toNat ≠ 0) ∧ t.pc = s.pc + 2 ∧ t.status = .ok

/-- The frame of `Fx15` and `Fx18`: the other timer ticks, nothing else changes but PC (R102, decision D10). -/
def Obligations.TimerWritesChangeOnlyTheirTimer : Prop :=
  ∀ (x : RegNo) (s t : State),
    (exec (.ldDtVx x) s = .next t → t.st.toNat = s.st.toNat - 1) ∧
    (exec (.ldStVx x) s = .next t → t.dt.toNat = s.dt.toNat - 1) ∧
    (exec (.ldDtVx x) s = .next t ∨ exec (.ldStVx x) s = .next t →
      SameRegsBut [] s t ∧ t.i = s.i ∧ SameStack s t ∧ SameMemory s t ∧ SameCells s t ∧ SameControl s t ∧
        NoDrawNoIntent s t)

/-- `Fx0A` with a key pressed completes in its own step: Vx gets the code of a pressed key; nothing else changes but
PC, the timers and the draw counter (R186, R188; decisions D10, D15 and D16, log 3). -/
def Obligations.KeyWaitCompletesWithAPressedKey : Prop :=
  ∀ (x : RegNo) (s : State), s.keys ≠ 0 →
    ∃ (t : State) (k : KeyNo), exec (.ldVxK x) s = .next t ∧ s.keys.getLsbD k.val = true ∧
      (t.readV x).toNat = k.val ∧ t.pc = s.pc + 2 ∧ Completed s t ∧ SameRegsBut [x] s t ∧ t.i = s.i ∧ SameStack s t ∧
      SameMemory s t ∧ SameCells s t ∧ SameControl s t ∧ t.intents = []

/-- `Fx0A` with no key pressed: PC stays at A, WAIT holds x, the status is Waiting, the timers tick once, no register
changes, nothing else changes (R186; decisions D10 and D14). -/
def Obligations.KeyWaitSuspendsWithoutAKey : Prop :=
  ∀ (x : RegNo) (s : State), s.keys = 0 →
    ∃ t, exec (.ldVxK x) s = .next t ∧ t.pc = s.pc ∧ t.wait = some x ∧ t.status = .waiting ∧ Ticked s t ∧
      SameRegsBut [] s t ∧ t.i = s.i ∧ SameStack s t ∧ SameMemory s t ∧ SameCells s t ∧ t.keys = s.keys ∧
      t.halt = s.halt ∧ t.decodeErrorSeen = s.decodeErrorSeen ∧ NoDrawNoIntent s t

/-- A waiting step: with no key pressed nothing changes; with one, the suspended `Fx0A` completes, Vx gets a pressed
key, PC moves to A + 2, WAIT is cleared, the timers do not tick and nothing else changes (R187; decisions D14 and D15,
log 3). -/
def Obligations.WaitingStepOnlyChecksTheKeys : Prop :=
  ∀ (x : RegNo) (s : State), s.halt = none → s.wait = some x →
    (s.keys = 0 → step s = .next { s with status := .waiting, intents := [] }) ∧
    (s.keys ≠ 0 → ∃ (t : State) (k : KeyNo), step s = .next t ∧ s.keys.getLsbD k.val = true ∧
      (t.readV x).toNat = k.val ∧ SameRegsBut [x] s t ∧
      t = { s with
        v := t.v, pc := s.pc + 2, wait := none, status := .ok, intents := [], draws := t.draws })

/-- KEY_SELECT admits exactly the pressed keys: whatever the choice, the key selected is pressed; every pressed key is
selected by some choice; none is selected only when none is pressed (R188, decision D15). -/
def Obligations.KeySelectionAdmitsExactlyThePressedKeys : Prop :=
  ∀ keys : BitVec Config.numKeys,
    (∀ choice k, selectKey keys choice = some k → keys.getLsbD k.val = true) ∧
    (∀ k : KeyNo, keys.getLsbD k.val = true → ∃ choice, selectKey keys choice = some k) ∧
    ((∃ choice, selectKey keys choice = none) → keys = 0)
end

