-- ==== Sys2Proof/Laws/Decode.lean ====
section
/-! SUPPORT. The fields of a word made from fields: what the decoder reads is what the encoder wrote. -/

namespace Sys2Proof

section

variable (t n : BitVec 4) (x y : RegNo) (kk : Byte) (nnn : BitVec 12)

theorem regBits_toNat : (regBits x).toNat = x.val := by
  simp [regBits]

theorem encodeNNN_toNat : (encodeNNN t nnn).toNat = t.toNat * 4096 + nnn.toNat := by
  simp only [encodeNNN, BitVec.toNat_append]
  rw [← Nat.shiftLeft_add_eq_or_of_lt nnn.isLt, Nat.shiftLeft_eq]

theorem encodeXKK_toNat : (encodeXKK t x kk).toNat = t.toNat * 4096 + x.val * 256 + kk.toNat := by
  simp only [encodeXKK, BitVec.toNat_append, regBits_toNat]
  rw [← Nat.shiftLeft_add_eq_or_of_lt kk.isLt, ← Nat.shiftLeft_add_eq_or_of_lt x.isLt, Nat.shiftLeft_eq,
    Nat.shiftLeft_eq]
  omega

theorem encodeXYN_toNat :
    (encodeXYN t x y n).toNat = t.toNat * 4096 + x.val * 256 + y.val * 16 + n.toNat := by
  simp only [encodeXYN, BitVec.toNat_append, regBits_toNat]
  rw [← Nat.shiftLeft_add_eq_or_of_lt n.isLt, ← Nat.shiftLeft_add_eq_or_of_lt y.isLt,
    ← Nat.shiftLeft_add_eq_or_of_lt x.isLt, Nat.shiftLeft_eq, Nat.shiftLeft_eq, Nat.shiftLeft_eq]
  omega

end

section

variable (op : Word)

theorem Field.top_toNat : (Field.top op).toNat = op.toNat / 4096 := by
  have := op.isLt
  simp [Field.top, Nat.shiftRight_eq_div_pow]
  omega

theorem Field.x_val : (Field.x op).val = op.toNat / 256 % 16 := by
  simp [Field.x, Nat.shiftRight_eq_div_pow]

theorem Field.y_val : (Field.y op).val = op.toNat / 16 % 16 := by
  simp [Field.y, Nat.shiftRight_eq_div_pow]

theorem Field.n_toNat : (Field.n op).toNat = op.toNat % 16 := by
  simp [Field.n]

theorem Field.kk_toNat : (Field.kk op).toNat = op.toNat % 256 := by
  simp [Field.kk]

theorem Field.nnn_toNat : (Field.nnn op).toNat = op.toNat % 4096 := by
  simp [Field.nnn]

end

section

variable (t n : BitVec 4) (x y : RegNo) (kk : Byte) (nnn : BitVec 12)

@[simp] theorem Field.top_encodeNNN : Field.top (encodeNNN t nnn) = t := by
  apply BitVec.eq_of_toNat_eq; rw [Field.top_toNat, encodeNNN_toNat]; have := nnn.isLt; omega

@[simp] theorem Field.nnn_encodeNNN : Field.nnn (encodeNNN t nnn) = nnn := by
  apply BitVec.eq_of_toNat_eq; rw [Field.nnn_toNat, encodeNNN_toNat]; have := nnn.isLt; omega

@[simp] theorem Field.top_encodeXKK : Field.top (encodeXKK t x kk) = t := by
  apply BitVec.eq_of_toNat_eq; rw [Field.top_toNat, encodeXKK_toNat]; have := kk.isLt; have := x.isLt; omega

@[simp] theorem Field.x_encodeXKK : Field.x (encodeXKK t x kk) = x := by
  apply Fin.ext; rw [Field.x_val, encodeXKK_toNat]; have := kk.isLt; have := x.isLt; omega

@[simp] theorem Field.kk_encodeXKK : Field.kk (encodeXKK t x kk) = kk := by
  apply BitVec.eq_of_toNat_eq; rw [Field.kk_toNat, encodeXKK_toNat]; have := kk.isLt; omega

@[simp] theorem Field.top_encodeXYN : Field.top (encodeXYN t x y n) = t := by
  apply BitVec.eq_of_toNat_eq; rw [Field.top_toNat, encodeXYN_toNat]
  have := x.isLt; have := y.isLt; have := n.isLt; omega

@[simp] theorem Field.x_encodeXYN : Field.x (encodeXYN t x y n) = x := by
  apply Fin.ext; rw [Field.x_val, encodeXYN_toNat]
  have := x.isLt; have := y.isLt; have := n.isLt; omega

@[simp] theorem Field.y_encodeXYN : Field.y (encodeXYN t x y n) = y := by
  apply Fin.ext; rw [Field.y_val, encodeXYN_toNat]
  have := y.isLt; have := n.isLt; omega

@[simp] theorem Field.n_encodeXYN : Field.n (encodeXYN t x y n) = n := by
  apply BitVec.eq_of_toNat_eq; rw [Field.n_toNat, encodeXYN_toNat]; have := n.isLt; omega

end

/-! The bits of a word that a row's mask keeps (R75). -/

section

variable (t n : BitVec 4) (x y : RegNo) (kk : Byte) (nnn : BitVec 12)

theorem encodeNNN_and_top : encodeNNN t nnn &&& 0xF000 = t ++ (0 : BitVec 12) := by
  unfold encodeNNN
  ext i hi
  simp only [BitVec.getElem_and, BitVec.getElem_append]
  interval_cases i <;> simp

theorem encodeXKK_and_top : encodeXKK t x kk &&& 0xF000 = t ++ (0 : BitVec 12) := by
  unfold encodeXKK
  ext i hi
  simp only [BitVec.getElem_and, BitVec.getElem_append]
  interval_cases i <;> simp

theorem encodeXKK_and_sub : encodeXKK t x kk &&& 0xF0FF = t ++ (0 : BitVec 4) ++ kk := by
  unfold encodeXKK
  ext i hi
  simp only [BitVec.getElem_and, BitVec.getElem_append]
  interval_cases i <;> simp

theorem encodeXYN_and_top : encodeXYN t x y n &&& 0xF000 = t ++ (0 : BitVec 12) := by
  unfold encodeXYN
  ext i hi
  simp only [BitVec.getElem_and, BitVec.getElem_append]
  interval_cases i <;> simp

theorem encodeXYN_and_sub : encodeXYN t x y n &&& 0xF00F = t ++ (0 : BitVec 8) ++ n := by
  unfold encodeXYN
  ext i hi
  simp only [BitVec.getElem_and, BitVec.getElem_append]
  interval_cases i <;> simp

end

/-- The two bytes of a word, put together again (R52). -/
@[simp] theorem wordOfBytes_wordBytes (op : Word) : wordOfBytes (op.extractLsb' 8 8) (op.extractLsb' 0 8) = op := by
  apply BitVec.eq_of_toNat_eq
  have := op.isLt
  simp only [wordOfBytes, BitVec.toNat_append]
  rw [← Nat.shiftLeft_add_eq_or_of_lt (BitVec.isLt _)]
  simp [Nat.shiftLeft_eq, Nat.shiftRight_eq_div_pow]
  omega

end Sys2Proof
end

