-- ==== Sys2Proof/Laws/Display.lean ====
section
/-! SUPPORT. The framebuffer: reads after writes, where a sprite bit falls, what one toggle does. -/

namespace Sys2Proof.Machine

/-- One cell read after one cell was written. -/
theorem Framebuffer.get_put (fb : Framebuffer) (c c' : Fin Config.fbWidth) (r r' : Fin Config.fbHeight) (lit : Bool) :
    (fb.put c r lit).get c' r' = if c' = c ∧ r' = r then lit else fb.get c' r' := by
  simp only [Framebuffer.get, Framebuffer.put, Fin.getElem_fin, Vector.getElem_set]
  by_cases hc : c' = c
  · subst hc
    by_cases hr : r' = r
    · subst hr; simp
    · simp [hr, Fin.val_ne_of_ne (Ne.symm hr)]
  · simp [hc, Fin.val_ne_of_ne (Ne.symm hc)]

@[simp] theorem Framebuffer.get_unlit (c : Fin Config.fbWidth) (r : Fin Config.fbHeight) :
    Framebuffer.unlit.get c r = false := by
  simp [Framebuffer.get, Framebuffer.unlit]

/-- Two framebuffers with the same cells are the same. -/
theorem Framebuffer.ext_get {fb fb' : Framebuffer} (h : ∀ c r, fb.get c r = fb'.get c r) : fb = fb' := by
  apply Vector.ext
  intro c hc
  apply Vector.ext
  intro r hr
  exact h ⟨c, hc⟩ ⟨r, hr⟩

/-- Where the column of a sprite bit lands (R167). -/
theorem wrapColumn_eq {n c : Nat} (hc : c < 64) : wrapColumn n = c ↔ n = c ∨ n = c + 64 := by
  unfold wrapColumn
  split <;> omega

/-- The cell of a sprite bit (R167): the column as it is or less 64, the row as it is; none where one is outside. -/
theorem place_eq_some {vx vy b j : Nat} {c : Fin Config.fbWidth} {r : Fin Config.fbHeight} :
    place vx vy b j = some (c, r) ↔ (c.val = vx + b ∨ c.val + 64 = vx + b) ∧ r.val = vy + j := by
  have hw := wrapColumn_eq (n := vx + b) c.isLt
  have hr := r.isLt
  unfold place
  split
  next h =>
    simp only [Option.some.injEq, Prod.mk.injEq, Fin.ext_iff]
    omega
  next h =>
    simp only [reduceCtorEq, false_iff]
    rintro ⟨hc, hr'⟩
    exact h ⟨(hw.2 (by omega)).symm ▸ c.isLt, hr' ▸ r.isLt⟩

/-- The cells one toggle leaves (R168): the one cell inverted, every other as it was. -/
theorem toggleCell_get (d : Draw) (p : Fin Config.fbWidth × Fin Config.fbHeight) (c : Fin Config.fbWidth)
    (r : Fin Config.fbHeight) :
    (toggleCell d p).fb.get c r = if (c, r) = p then !d.fb.get c r else d.fb.get c r := by
  obtain ⟨pc, pr⟩ := p
  unfold toggleCell
  split <;> rename_i h <;> simp only [Framebuffer.get_put, Prod.mk.injEq] <;> split <;> simp_all

/-- The collision record after one toggle: raised by a lit cell, never lowered (R168). -/
theorem toggleCell_hit (d : Draw) (p : Fin Config.fbWidth × Fin Config.fbHeight) :
    (toggleCell d p).hit = (d.hit || d.fb.get p.1 p.2) := by
  unfold toggleCell
  split <;> simp_all

/-- The intent one toggle adds: the cell's new value (R169). -/
theorem toggleCell_intents (d : Draw) (p : Fin Config.fbWidth × Fin Config.fbHeight) :
    (toggleCell d p).intents = d.intents ++ [.setPixel p.1 p.2 (!d.fb.get p.1 p.2)] := by
  unfold toggleCell
  split <;> simp_all

/-- The cells of a sprite: those on which some sprite bit of 1 falls (R167, R170). -/
theorem mem_spriteCells {vx vy j₀ : Nat} {rows : List Byte} {p : Fin Config.fbWidth × Fin Config.fbHeight} :
    p ∈ spriteCells vx vy j₀ rows ↔
      ∃ j b, ∃ h : j < rows.length, b < 8 ∧ rows[j].getLsbD (7 - b) = true ∧ place vx vy b (j₀ + j) = some p := by
  induction rows generalizing j₀ with
  | nil => simp [spriteCells]
  | cons row rows ih =>
    simp only [spriteCells, List.mem_append, ih, spriteRowCells, List.mem_filterMap, List.mem_range]
    constructor
    · rintro (⟨b, hb, h⟩ | ⟨j, b, hj, hb, h1, h2⟩)
      · split at h
        next hbit => exact ⟨0, b, by simp, hb, by simpa using hbit, by simpa using h⟩
        next => cases h
      · exact ⟨j + 1, b, by simpa using hj, hb, by simpa using h1, by rw [← h2]; congr 1; omega⟩
    · rintro ⟨j, b, hj, hb, h1, h2⟩
      cases j with
      | zero => exact .inl ⟨b, hb, by rw [if_pos (by simpa using h1)]; simpa using h2⟩
      | succ j => exact .inr ⟨j, b, by simpa using hj, hb, by simpa using h1, by rw [← h2]; congr 1; omega⟩

/-- The cells of one sprite row are distinct: its eight columns are, after the wrap (R170). -/
theorem nodup_spriteRowCells (vx vy j : Nat) (row : Byte) : (spriteRowCells vx vy j row).Nodup := by
  refine List.pairwise_filterMap.2 (List.nodup_range.imp_of_mem ?_)
  rintro b b' hb hb' hne ⟨c, r⟩ hp _ hp' rfl
  simp only [List.mem_range] at hb hb'
  split at hp
  next =>
    split at hp'
    next =>
      have h := place_eq_some.1 hp
      have h' := place_eq_some.1 hp'
      omega
    next => cases hp'
  next => cases hp

/-- One draw meets each cell at most once (R170). -/
theorem nodup_spriteCells (vx vy j₀ : Nat) (rows : List Byte) : (spriteCells vx vy j₀ rows).Nodup := by
  induction rows generalizing j₀ with
  | nil => simp [spriteCells]
  | cons row rows ih =>
    refine List.nodup_append.2 ⟨nodup_spriteRowCells vx vy j₀ row, ih _, ?_⟩
    rintro ⟨c, r⟩ hp _ hq rfl
    simp only [spriteRowCells, List.mem_filterMap, List.mem_range] at hp
    obtain ⟨b, -, hp⟩ := hp
    obtain ⟨j, b', -, -, -, hq⟩ := mem_spriteCells.1 hq
    split at hp
    next =>
      have h := place_eq_some.1 hp
      have h' := place_eq_some.1 hq
      omega
    next => cases hp

/-- All a run of toggles over distinct cells does: each cell inverted once, the collision record raised by a lit one,
one intent a cell. -/
theorem foldl_toggleCell {cells : List (Fin Config.fbWidth × Fin Config.fbHeight)} (hn : cells.Nodup) (d : Draw) :
    (∀ c r, (cells.foldl toggleCell d).fb.get c r = if (c, r) ∈ cells then !d.fb.get c r else d.fb.get c r) ∧
      (cells.foldl toggleCell d).hit = (d.hit || cells.any fun p => d.fb.get p.1 p.2) ∧
      (cells.foldl toggleCell d).intents =
        d.intents ++ cells.map fun p => .setPixel p.1 p.2 (!d.fb.get p.1 p.2) := by
  induction cells generalizing d with
  | nil => simp
  | cons p cells ih =>
    obtain ⟨hp, hn⟩ := List.nodup_cons.1 hn
    obtain ⟨h1, h2, h3⟩ := ih hn (toggleCell d p)
    have hget : ∀ q ∈ cells, (toggleCell d p).fb.get q.1 q.2 = d.fb.get q.1 q.2 := by
      intro q hq
      rw [toggleCell_get, if_neg (by rintro rfl; exact hp hq)]
    rw [List.foldl_cons]
    refine ⟨fun c r => ?_, ?_, ?_⟩
    · rw [h1, toggleCell_get]
      by_cases hc : (c, r) = p
      · simp [hc, hp]
      · simp [hc]
    · rw [h2, toggleCell_hit, List.any_cons, Bool.or_assoc]
      congr 2
      rw [Bool.eq_iff_iff, List.any_eq_true, List.any_eq_true]
      exact ⟨fun ⟨q, hq, h⟩ => ⟨q, hq, hget q hq ▸ h⟩, fun ⟨q, hq, h⟩ => ⟨q, hq, (hget q hq).symm ▸ h⟩⟩
    · rw [h3, toggleCell_intents, List.map_cons, List.append_assoc, List.singleton_append]
      exact congrArg _ (congrArg _ (List.map_congr_left fun q hq => by rw [hget q hq]))

end Sys2Proof.Machine
end

