-- ==== Sys2Proof/Laws/Memory.lean ====
section
/-! SUPPORT. Memory: reads after writes, and that every memory operation keeps the canonical form. -/

namespace Sys2Proof.Machine

/-- An address that no entry holds reads as blank. -/
theorem Memory.read_unlisted {m : Memory} {a : Nat} (h : ∀ c ∈ m, c.1 ≠ a) : m.read a = Memory.blank a := by
  induction m with
  | nil => rfl
  | cons c m ih =>
    obtain ⟨k, b⟩ := c
    have hk : k ≠ a := h (k, b) (by simp)
    simp only [Memory.read, hk, if_false]
    exact ih fun c hc => h c (by simp [hc])

/-- Keys below every listed one read as blank. -/
theorem Memory.read_below {m : Memory} {a k : Nat} (hs : ∀ c ∈ m, k < c.1) (h : a ≤ k) :
    m.read a = Memory.blank a :=
  Memory.read_unlisted fun c hc => by have := hs c hc; omega

/-- A read after a write, on an ordered memory. -/
theorem Memory.read_write {m : Memory} (hm : m.Pairwise (fun c d => c.1 < d.1)) (a a' : Nat) (b : Byte) :
    (m.write a b).read a' = if a' = a then b else m.read a' := by
  induction m with
  | nil =>
    by_cases hb : b = Memory.blank a <;> by_cases ha : a' = a
    · simp [Memory.write, Memory.read, hb, ha]
    · simp [Memory.write, Memory.read, hb, ha]
    · simp [Memory.write, Memory.read, hb, ha]
    · simp [Memory.write, Memory.read, hb, ha, Ne.symm ha]
  | cons c m ih =>
    obtain ⟨k, c⟩ := c
    obtain ⟨hk, hm⟩ := List.pairwise_cons.1 hm
    have below : ∀ e, e ≤ k → Memory.read m e = Memory.blank e := fun e he => Memory.read_below hk he
    have ih := ih hm
    unfold Memory.write
    split
    next hlt =>
      split
      next hb =>
        by_cases ha : a' = a
        · simp [Memory.read, ha, hb, below a (by omega), show k ≠ a by omega]
        · simp [ha]
      next hb =>
        by_cases ha : a' = a
        · simp [Memory.read, ha]
        · simp [Memory.read, ha, Ne.symm ha]
    next hlt =>
      split
      next heq =>
        subst heq
        split
        next hb =>
          by_cases ha : a' = a
          · simp [ha, hb, below a (by omega)]
          · simp [Memory.read, ha, Ne.symm ha]
        next hb =>
          by_cases ha : a' = a
          · simp [Memory.read, ha]
          · simp [Memory.read, ha, Ne.symm ha]
      next hne =>
        by_cases hk' : k = a'
        · simp [Memory.read, hk', show a' ≠ a by omega]
        · simp [Memory.read, hk', ih]

/-- Every entry of a memory after a write is an old entry, or the byte written. -/
theorem Memory.mem_write {m : Memory} {a : Nat} {b : Byte} {e : Host.Cell} (h : e ∈ m.write a b) :
    e ∈ m ∨ (e = (a, b) ∧ b ≠ Memory.blank a) := by
  induction m with
  | nil =>
    unfold Memory.write at h
    split at h
    next => simp at h
    next hb => exact .inr ⟨by simpa using h, hb⟩
  | cons c m ih =>
    obtain ⟨k, c⟩ := c
    unfold Memory.write at h
    split at h
    next =>
      split at h
      next => exact .inl h
      next hb =>
        rcases List.mem_cons.1 h with h | h
        · exact .inr ⟨h, hb⟩
        · exact .inl h
    next =>
      split at h
      next =>
        split at h
        next => exact .inl (by simp [h])
        next hb =>
          rcases List.mem_cons.1 h with h | h
          · exact .inr ⟨h, hb⟩
          · exact .inl (by simp [h])
      next =>
        rcases List.mem_cons.1 h with h | h
        · exact .inl (by simp [h])
        · exact (ih h).imp (fun h => by simp [h]) id

/-- A write keeps the addresses strictly rising. -/
theorem Memory.pairwise_write {m : Memory} (hm : m.Pairwise (fun c d => c.1 < d.1)) (a : Nat) (b : Byte) :
    (m.write a b).Pairwise (fun c d => c.1 < d.1) := by
  induction m with
  | nil => unfold Memory.write; split <;> simp
  | cons c m ih =>
    obtain ⟨k, c⟩ := c
    obtain ⟨hk, hm'⟩ := List.pairwise_cons.1 hm
    unfold Memory.write
    split
    next hlt =>
      split
      next => exact hm
      next =>
        refine List.pairwise_cons.2 ⟨fun e he => ?_, hm⟩
        rcases List.mem_cons.1 he with rfl | he
        · exact hlt
        · exact Nat.lt_trans hlt (hk e he)
    next hlt =>
      split
      next heq =>
        split
        next => exact hm'
        next => exact List.pairwise_cons.2 ⟨fun e he => by simpa [heq] using hk e he, hm'⟩
      next hne =>
        refine List.pairwise_cons.2 ⟨fun e he => ?_, ih hm'⟩
        rcases Memory.mem_write he with he | ⟨rfl, -⟩
        · exact hk e he
        · show k < a; omega

/-- A write inside memory keeps the canonical form. -/
theorem Memory.write_wf {m : Memory} (hm : m.wf) {a : Nat} (ha : a < Config.memSize) (b : Byte) :
    (m.write a b).wf := by
  refine ⟨Memory.pairwise_write hm.1 a b, fun e he => ?_⟩
  rcases Memory.mem_write he with he | ⟨rfl, hb⟩
  · exact hm.2 e he
  · exact ⟨ha, hb⟩

/-- Several bytes written inside memory keep the canonical form. -/
theorem Memory.writeBytes_wf {bs : List Byte} {m : Memory} (hm : m.wf) {a : Nat}
    (ha : a + bs.length ≤ Config.memSize) : (m.writeBytes a bs).wf := by
  induction bs generalizing m a with
  | nil => exact hm
  | cons b bs ih =>
    simp only [List.length_cons] at ha
    exact ih (Memory.write_wf hm (by omega) b) (by omega)

/-- Several bytes written keep the addresses strictly rising. -/
theorem Memory.pairwise_writeBytes {bs : List Byte} {m : Memory} (hm : m.Pairwise (fun c d => c.1 < d.1)) (a : Nat) :
    (m.writeBytes a bs).Pairwise (fun c d => c.1 < d.1) := by
  induction bs generalizing m a with
  | nil => exact hm
  | cons b bs ih => exact ih (Memory.pairwise_write hm a b) (a + 1)

/-- A read after several bytes were written, on an ordered memory. -/
theorem Memory.read_writeBytes {bs : List Byte} {m : Memory} (hm : m.Pairwise (fun c d => c.1 < d.1)) (a a' : Nat) :
    (m.writeBytes a bs).read a' =
      if a ≤ a' ∧ a' < a + bs.length then bs.getD (a' - a) 0 else m.read a' := by
  induction bs generalizing m a with
  | nil => simp [Memory.writeBytes]
  | cons b bs ih =>
    simp only [Memory.writeBytes, ih (Memory.pairwise_write hm a b), Memory.read_write hm, List.length_cons]
    by_cases h : a + 1 ≤ a' ∧ a' < a + 1 + bs.length
    · rw [if_pos h, if_pos (by omega), show a' - a = (a' - (a + 1)) + 1 by omega, List.getD_cons_succ]
    · rw [if_neg h]
      by_cases h' : a' = a
      · simp [h']
      · rw [if_neg h', if_neg (by omega)]

/-- Memory with a font loaded is canonical. -/
theorem Memory.withFont_wf (font : Config.Font) : (Memory.withFont font).wf :=
  Memory.writeBytes_wf ⟨List.Pairwise.nil, fun _ h => nomatch h⟩ (by simp [Config.numGlyphs, Config.glyphBytes, Config.memSize])

/-- What memory with a font loaded reads as: the font, and 0 past it. -/
theorem Memory.read_withFont (font : Config.Font) (a : Nat) :
    (Memory.withFont font).read a = font.toList.getD a 0 := by
  rw [Memory.withFont, Memory.read_writeBytes List.Pairwise.nil]
  split
  next h => simp
  next h =>
    rw [List.getD_eq_default _ _ (by simpa using h)]
    rfl

/-- The memory after reset is canonical, whatever the font. -/
theorem Memory.reset_wf (p : Config.Params) : (State.resetWith p).mem.wf := Memory.withFont_wf p.font

@[simp] theorem Memory.length_readBytes (m : Memory) (a n : Nat) : (m.readBytes a n).length = n := by
  simp [Memory.readBytes]

/-- When the range check passes. -/
theorem checkRange_eq_none {kind : AccessKind} {base count : Nat} :
    checkRange kind base count = none ↔ count = 0 ∨ base + count ≤ Config.memSize := by
  unfold checkRange
  split
  next h => simp only [reduceCtorEq, false_iff]; simp only [Config.memTop, Config.memSize] at h ⊢; omega
  next h => simp only [true_iff]; simp only [Config.memTop, Config.memSize] at h ⊢; omega

/-- What the range check raises when it fails. -/
theorem checkRange_eq_some {kind : AccessKind} {base count : Nat} {c : HaltCause} :
    checkRange kind base count = some c ↔
      (0 < count ∧ Config.memSize < base + count) ∧ c = .addressError kind (max base Config.memSize) := by
  unfold checkRange
  split
  next h =>
    simp only [Config.memTop, Config.memSize] at h ⊢
    rw [Option.some.injEq, eq_comm]
    exact ⟨fun hc => ⟨by omega, hc⟩, fun hc => hc.2⟩
  next h =>
    simp only [Config.memTop, Config.memSize] at h ⊢
    simp only [reduceCtorEq, false_iff, not_and]
    omega

end Sys2Proof.Machine
end

