-- ==== Sys2Proof/Laws/State.lean ====
section
/-! SUPPORT. One lemma per field per update of the state, true by unfolding the update once, so that no later proof unfolds
a record update. -/

namespace Sys2Proof.Machine

@[simp] theorem State.stackDepth_eq (s : State) : s.stackDepth = s.stack.length := rfl

section resetWith

variable (p : Config.Params)

@[simp] theorem State.resetWith_v : (State.resetWith p).v = Vector.replicate Config.numV 0 := rfl
@[simp] theorem State.resetWith_i : (State.resetWith p).i = 0 := rfl
@[simp] theorem State.resetWith_pc : (State.resetWith p).pc = Config.pcReset := rfl
@[simp] theorem State.resetWith_stack : (State.resetWith p).stack = List.replicate p.stackDepth 0 := rfl
@[simp] theorem State.resetWith_sp : (State.resetWith p).sp = 0 := rfl
@[simp] theorem State.resetWith_dt : (State.resetWith p).dt = 0 := rfl
@[simp] theorem State.resetWith_st : (State.resetWith p).st = 0 := rfl
@[simp] theorem State.resetWith_mem : (State.resetWith p).mem = Memory.withFont p.font := rfl
@[simp] theorem State.resetWith_fb : (State.resetWith p).fb =
    Vector.replicate Config.fbWidth (Vector.replicate Config.fbHeight false) := rfl
@[simp] theorem State.resetWith_keys : (State.resetWith p).keys = 0 := rfl
@[simp] theorem State.resetWith_wait : (State.resetWith p).wait = none := rfl
@[simp] theorem State.resetWith_halt : (State.resetWith p).halt = none := rfl
@[simp] theorem State.resetWith_status : (State.resetWith p).status = .ok := rfl
@[simp] theorem State.resetWith_intents : (State.resetWith p).intents = [] := rfl
@[simp] theorem State.resetWith_draws : (State.resetWith p).draws = 0 := rfl
@[simp] theorem State.resetWith_decodeErrorSeen : (State.resetWith p).decodeErrorSeen = false := rfl

end resetWith

section writeV

variable (s : State) (x : RegNo) (b : Byte)

@[simp] theorem State.writeV_v : (s.writeV x b).v = s.v.set x b := rfl
@[simp] theorem State.writeV_i : (s.writeV x b).i = s.i := rfl
@[simp] theorem State.writeV_pc : (s.writeV x b).pc = s.pc := rfl
@[simp] theorem State.writeV_stack : (s.writeV x b).stack = s.stack := rfl
@[simp] theorem State.writeV_sp : (s.writeV x b).sp = s.sp := rfl
@[simp] theorem State.writeV_dt : (s.writeV x b).dt = s.dt := rfl
@[simp] theorem State.writeV_st : (s.writeV x b).st = s.st := rfl
@[simp] theorem State.writeV_mem : (s.writeV x b).mem = s.mem := rfl
@[simp] theorem State.writeV_fb : (s.writeV x b).fb = s.fb := rfl
@[simp] theorem State.writeV_keys : (s.writeV x b).keys = s.keys := rfl
@[simp] theorem State.writeV_wait : (s.writeV x b).wait = s.wait := rfl
@[simp] theorem State.writeV_halt : (s.writeV x b).halt = s.halt := rfl
@[simp] theorem State.writeV_status : (s.writeV x b).status = s.status := rfl
@[simp] theorem State.writeV_intents : (s.writeV x b).intents = s.intents := rfl
@[simp] theorem State.writeV_draws : (s.writeV x b).draws = s.draws := rfl
@[simp] theorem State.writeV_decodeErrorSeen : (s.writeV x b).decodeErrorSeen = s.decodeErrorSeen := rfl

end writeV

section tick

variable (s : State)

@[simp] theorem State.tick_v : s.tick.v = s.v := rfl
@[simp] theorem State.tick_i : s.tick.i = s.i := rfl
@[simp] theorem State.tick_pc : s.tick.pc = s.pc := rfl
@[simp] theorem State.tick_stack : s.tick.stack = s.stack := rfl
@[simp] theorem State.tick_sp : s.tick.sp = s.sp := rfl
@[simp] theorem State.tick_dt : s.tick.dt = countDown s.dt := rfl
@[simp] theorem State.tick_st : s.tick.st = countDown s.st := rfl
@[simp] theorem State.tick_mem : s.tick.mem = s.mem := rfl
@[simp] theorem State.tick_fb : s.tick.fb = s.fb := rfl
@[simp] theorem State.tick_keys : s.tick.keys = s.keys := rfl
@[simp] theorem State.tick_wait : s.tick.wait = s.wait := rfl
@[simp] theorem State.tick_halt : s.tick.halt = s.halt := rfl
@[simp] theorem State.tick_status : s.tick.status = s.status := rfl
@[simp] theorem State.tick_intents : s.tick.intents = s.intents := rfl
@[simp] theorem State.tick_draws : s.tick.draws = s.draws := rfl
@[simp] theorem State.tick_decodeErrorSeen : s.tick.decodeErrorSeen = s.decodeErrorSeen := rfl

end tick

section begin

variable (s : State)

@[simp] theorem State.begin_v : s.begin.v = s.v := rfl
@[simp] theorem State.begin_i : s.begin.i = s.i := rfl
@[simp] theorem State.begin_pc : s.begin.pc = s.pc + 2 := rfl
@[simp] theorem State.begin_stack : s.begin.stack = s.stack := rfl
@[simp] theorem State.begin_sp : s.begin.sp = s.sp := rfl
@[simp] theorem State.begin_dt : s.begin.dt = countDown s.dt := rfl
@[simp] theorem State.begin_st : s.begin.st = countDown s.st := rfl
@[simp] theorem State.begin_mem : s.begin.mem = s.mem := rfl
@[simp] theorem State.begin_fb : s.begin.fb = s.fb := rfl
@[simp] theorem State.begin_keys : s.begin.keys = s.keys := rfl
@[simp] theorem State.begin_wait : s.begin.wait = s.wait := rfl
@[simp] theorem State.begin_halt : s.begin.halt = s.halt := rfl
@[simp] theorem State.begin_status : s.begin.status = .ok := rfl
@[simp] theorem State.begin_intents : s.begin.intents = [] := rfl
@[simp] theorem State.begin_draws : s.begin.draws = s.draws := rfl
@[simp] theorem State.begin_decodeErrorSeen : s.begin.decodeErrorSeen = s.decodeErrorSeen := rfl

end begin

section jump

variable (s : State) (a : Word)

@[simp] theorem State.jump_v : (s.jump a).v = s.v := rfl
@[simp] theorem State.jump_i : (s.jump a).i = s.i := rfl
@[simp] theorem State.jump_pc : (s.jump a).pc = a := rfl
@[simp] theorem State.jump_stack : (s.jump a).stack = s.stack := rfl
@[simp] theorem State.jump_sp : (s.jump a).sp = s.sp := rfl
@[simp] theorem State.jump_dt : (s.jump a).dt = s.dt := rfl
@[simp] theorem State.jump_st : (s.jump a).st = s.st := rfl
@[simp] theorem State.jump_mem : (s.jump a).mem = s.mem := rfl
@[simp] theorem State.jump_fb : (s.jump a).fb = s.fb := rfl
@[simp] theorem State.jump_keys : (s.jump a).keys = s.keys := rfl
@[simp] theorem State.jump_wait : (s.jump a).wait = s.wait := rfl
@[simp] theorem State.jump_halt : (s.jump a).halt = s.halt := rfl
@[simp] theorem State.jump_status : (s.jump a).status = s.status := rfl
@[simp] theorem State.jump_intents : (s.jump a).intents = s.intents := rfl
@[simp] theorem State.jump_draws : (s.jump a).draws = s.draws := rfl
@[simp] theorem State.jump_decodeErrorSeen : (s.jump a).decodeErrorSeen = s.decodeErrorSeen := rfl

end jump

section loadBlock

variable (s : State) (x : RegNo) (a : Nat)

@[simp] theorem State.loadBlock_i : (s.loadBlock x a).i = s.i := rfl
@[simp] theorem State.loadBlock_pc : (s.loadBlock x a).pc = s.pc := rfl
@[simp] theorem State.loadBlock_stack : (s.loadBlock x a).stack = s.stack := rfl
@[simp] theorem State.loadBlock_sp : (s.loadBlock x a).sp = s.sp := rfl
@[simp] theorem State.loadBlock_dt : (s.loadBlock x a).dt = s.dt := rfl
@[simp] theorem State.loadBlock_st : (s.loadBlock x a).st = s.st := rfl
@[simp] theorem State.loadBlock_mem : (s.loadBlock x a).mem = s.mem := rfl
@[simp] theorem State.loadBlock_fb : (s.loadBlock x a).fb = s.fb := rfl
@[simp] theorem State.loadBlock_keys : (s.loadBlock x a).keys = s.keys := rfl
@[simp] theorem State.loadBlock_wait : (s.loadBlock x a).wait = s.wait := rfl
@[simp] theorem State.loadBlock_halt : (s.loadBlock x a).halt = s.halt := rfl
@[simp] theorem State.loadBlock_status : (s.loadBlock x a).status = s.status := rfl
@[simp] theorem State.loadBlock_intents : (s.loadBlock x a).intents = s.intents := rfl
@[simp] theorem State.loadBlock_draws : (s.loadBlock x a).draws = s.draws := rfl
@[simp] theorem State.loadBlock_decodeErrorSeen : (s.loadBlock x a).decodeErrorSeen = s.decodeErrorSeen := rfl

end loadBlock

section takeFatal

variable (c : HaltCause) (s : State)

@[simp] theorem takeFatal_v : (takeFatal c s).v = s.v := rfl
@[simp] theorem takeFatal_i : (takeFatal c s).i = s.i := rfl
@[simp] theorem takeFatal_pc : (takeFatal c s).pc = s.pc := rfl
@[simp] theorem takeFatal_stack : (takeFatal c s).stack = s.stack := rfl
@[simp] theorem takeFatal_sp : (takeFatal c s).sp = s.sp := rfl
@[simp] theorem takeFatal_dt : (takeFatal c s).dt = s.dt := rfl
@[simp] theorem takeFatal_st : (takeFatal c s).st = s.st := rfl
@[simp] theorem takeFatal_mem : (takeFatal c s).mem = s.mem := rfl
@[simp] theorem takeFatal_fb : (takeFatal c s).fb = s.fb := rfl
@[simp] theorem takeFatal_keys : (takeFatal c s).keys = s.keys := rfl
@[simp] theorem takeFatal_wait : (takeFatal c s).wait = s.wait := rfl
@[simp] theorem takeFatal_halt : (takeFatal c s).halt = some c := rfl
@[simp] theorem takeFatal_status : (takeFatal c s).status = .fatal c := rfl
@[simp] theorem takeFatal_intents : (takeFatal c s).intents = [] := rfl
@[simp] theorem takeFatal_draws : (takeFatal c s).draws = s.draws := rfl
@[simp] theorem takeFatal_decodeErrorSeen : (takeFatal c s).decodeErrorSeen = s.decodeErrorSeen := rfl

end takeFatal

section takeDecodeError

variable (op : Word) (s : State)

@[simp] theorem takeDecodeError_v : (takeDecodeError op s).v = s.v := rfl
@[simp] theorem takeDecodeError_i : (takeDecodeError op s).i = s.i := rfl
@[simp] theorem takeDecodeError_pc : (takeDecodeError op s).pc = s.pc + 2 := rfl
@[simp] theorem takeDecodeError_stack : (takeDecodeError op s).stack = s.stack := rfl
@[simp] theorem takeDecodeError_sp : (takeDecodeError op s).sp = s.sp := rfl
@[simp] theorem takeDecodeError_dt : (takeDecodeError op s).dt = s.dt := rfl
@[simp] theorem takeDecodeError_st : (takeDecodeError op s).st = s.st := rfl
@[simp] theorem takeDecodeError_mem : (takeDecodeError op s).mem = s.mem := rfl
@[simp] theorem takeDecodeError_fb : (takeDecodeError op s).fb = s.fb := rfl
@[simp] theorem takeDecodeError_keys : (takeDecodeError op s).keys = s.keys := rfl
@[simp] theorem takeDecodeError_wait : (takeDecodeError op s).wait = s.wait := rfl
@[simp] theorem takeDecodeError_halt : (takeDecodeError op s).halt = s.halt := rfl
@[simp] theorem takeDecodeError_status : (takeDecodeError op s).status = .decodeError op s.pc := rfl
@[simp] theorem takeDecodeError_intents : (takeDecodeError op s).intents = [] := rfl
@[simp] theorem takeDecodeError_draws : (takeDecodeError op s).draws = s.draws := rfl
@[simp] theorem takeDecodeError_decodeErrorSeen : (takeDecodeError op s).decodeErrorSeen = true := rfl

end takeDecodeError

section haltedStep

variable (c : HaltCause) (s : State)

@[simp] theorem haltedStep_v : (haltedStep c s).v = s.v := rfl
@[simp] theorem haltedStep_i : (haltedStep c s).i = s.i := rfl
@[simp] theorem haltedStep_pc : (haltedStep c s).pc = s.pc := rfl
@[simp] theorem haltedStep_stack : (haltedStep c s).stack = s.stack := rfl
@[simp] theorem haltedStep_sp : (haltedStep c s).sp = s.sp := rfl
@[simp] theorem haltedStep_dt : (haltedStep c s).dt = s.dt := rfl
@[simp] theorem haltedStep_st : (haltedStep c s).st = s.st := rfl
@[simp] theorem haltedStep_mem : (haltedStep c s).mem = s.mem := rfl
@[simp] theorem haltedStep_fb : (haltedStep c s).fb = s.fb := rfl
@[simp] theorem haltedStep_keys : (haltedStep c s).keys = s.keys := rfl
@[simp] theorem haltedStep_wait : (haltedStep c s).wait = s.wait := rfl
@[simp] theorem haltedStep_halt : (haltedStep c s).halt = s.halt := rfl
@[simp] theorem haltedStep_status : (haltedStep c s).status = .fatal c := rfl
@[simp] theorem haltedStep_intents : (haltedStep c s).intents = [] := rfl
@[simp] theorem haltedStep_draws : (haltedStep c s).draws = s.draws := rfl
@[simp] theorem haltedStep_decodeErrorSeen : (haltedStep c s).decodeErrorSeen = s.decodeErrorSeen := rfl

end haltedStep

section keyDown

variable (k : KeyNo) (s : State)

@[simp] theorem keyDown_v : (keyDown k s).v = s.v := rfl
@[simp] theorem keyDown_i : (keyDown k s).i = s.i := rfl
@[simp] theorem keyDown_pc : (keyDown k s).pc = s.pc := rfl
@[simp] theorem keyDown_stack : (keyDown k s).stack = s.stack := rfl
@[simp] theorem keyDown_sp : (keyDown k s).sp = s.sp := rfl
@[simp] theorem keyDown_dt : (keyDown k s).dt = s.dt := rfl
@[simp] theorem keyDown_st : (keyDown k s).st = s.st := rfl
@[simp] theorem keyDown_mem : (keyDown k s).mem = s.mem := rfl
@[simp] theorem keyDown_fb : (keyDown k s).fb = s.fb := rfl
@[simp] theorem keyDown_wait : (keyDown k s).wait = s.wait := rfl
@[simp] theorem keyDown_halt : (keyDown k s).halt = s.halt := rfl
@[simp] theorem keyDown_status : (keyDown k s).status = s.status := rfl
@[simp] theorem keyDown_intents : (keyDown k s).intents = s.intents := rfl
@[simp] theorem keyDown_draws : (keyDown k s).draws = s.draws := rfl
@[simp] theorem keyDown_decodeErrorSeen : (keyDown k s).decodeErrorSeen = s.decodeErrorSeen := rfl

end keyDown

section keyUp

variable (k : KeyNo) (s : State)

@[simp] theorem keyUp_v : (keyUp k s).v = s.v := rfl
@[simp] theorem keyUp_i : (keyUp k s).i = s.i := rfl
@[simp] theorem keyUp_pc : (keyUp k s).pc = s.pc := rfl
@[simp] theorem keyUp_stack : (keyUp k s).stack = s.stack := rfl
@[simp] theorem keyUp_sp : (keyUp k s).sp = s.sp := rfl
@[simp] theorem keyUp_dt : (keyUp k s).dt = s.dt := rfl
@[simp] theorem keyUp_st : (keyUp k s).st = s.st := rfl
@[simp] theorem keyUp_mem : (keyUp k s).mem = s.mem := rfl
@[simp] theorem keyUp_fb : (keyUp k s).fb = s.fb := rfl
@[simp] theorem keyUp_wait : (keyUp k s).wait = s.wait := rfl
@[simp] theorem keyUp_halt : (keyUp k s).halt = s.halt := rfl
@[simp] theorem keyUp_status : (keyUp k s).status = s.status := rfl
@[simp] theorem keyUp_intents : (keyUp k s).intents = s.intents := rfl
@[simp] theorem keyUp_draws : (keyUp k s).draws = s.draws := rfl
@[simp] theorem keyUp_decodeErrorSeen : (keyUp k s).decodeErrorSeen = s.decodeErrorSeen := rfl

end keyUp

section drawRand

variable (s : State)

@[simp] theorem State.drawRand_v : s.drawRand.2.v = s.v := rfl
@[simp] theorem State.drawRand_i : s.drawRand.2.i = s.i := rfl
@[simp] theorem State.drawRand_pc : s.drawRand.2.pc = s.pc := rfl
@[simp] theorem State.drawRand_stack : s.drawRand.2.stack = s.stack := rfl
@[simp] theorem State.drawRand_sp : s.drawRand.2.sp = s.sp := rfl
@[simp] theorem State.drawRand_dt : s.drawRand.2.dt = s.dt := rfl
@[simp] theorem State.drawRand_st : s.drawRand.2.st = s.st := rfl
@[simp] theorem State.drawRand_mem : s.drawRand.2.mem = s.mem := rfl
@[simp] theorem State.drawRand_fb : s.drawRand.2.fb = s.fb := rfl
@[simp] theorem State.drawRand_keys : s.drawRand.2.keys = s.keys := rfl
@[simp] theorem State.drawRand_wait : s.drawRand.2.wait = s.wait := rfl
@[simp] theorem State.drawRand_halt : s.drawRand.2.halt = s.halt := rfl
@[simp] theorem State.drawRand_status : s.drawRand.2.status = s.status := rfl
@[simp] theorem State.drawRand_intents : s.drawRand.2.intents = s.intents := rfl
@[simp] theorem State.drawRand_draws : s.drawRand.2.draws = s.draws + 1 := rfl
@[simp] theorem State.drawRand_decodeErrorSeen : s.drawRand.2.decodeErrorSeen = s.decodeErrorSeen := rfl
@[simp] theorem State.drawRand_byte : s.drawRand.1 = Config.randByte s.draws := rfl

end drawRand

section skipIf

variable (s : State) (c : Bool)

@[simp] theorem State.skipIf_pc : (s.skipIf c).pc = if c then s.pc + 2 else s.pc := by cases c <;> rfl
@[simp] theorem State.skipIf_v : (s.skipIf c).v = s.v := by cases c <;> rfl
@[simp] theorem State.skipIf_i : (s.skipIf c).i = s.i := by cases c <;> rfl
@[simp] theorem State.skipIf_stack : (s.skipIf c).stack = s.stack := by cases c <;> rfl
@[simp] theorem State.skipIf_sp : (s.skipIf c).sp = s.sp := by cases c <;> rfl
@[simp] theorem State.skipIf_dt : (s.skipIf c).dt = s.dt := by cases c <;> rfl
@[simp] theorem State.skipIf_st : (s.skipIf c).st = s.st := by cases c <;> rfl
@[simp] theorem State.skipIf_mem : (s.skipIf c).mem = s.mem := by cases c <;> rfl
@[simp] theorem State.skipIf_fb : (s.skipIf c).fb = s.fb := by cases c <;> rfl
@[simp] theorem State.skipIf_keys : (s.skipIf c).keys = s.keys := by cases c <;> rfl
@[simp] theorem State.skipIf_wait : (s.skipIf c).wait = s.wait := by cases c <;> rfl
@[simp] theorem State.skipIf_halt : (s.skipIf c).halt = s.halt := by cases c <;> rfl
@[simp] theorem State.skipIf_status : (s.skipIf c).status = s.status := by cases c <;> rfl
@[simp] theorem State.skipIf_intents : (s.skipIf c).intents = s.intents := by cases c <;> rfl
@[simp] theorem State.skipIf_draws : (s.skipIf c).draws = s.draws := by cases c <;> rfl
@[simp] theorem State.skipIf_decodeErrorSeen : (s.skipIf c).decodeErrorSeen = s.decodeErrorSeen := by cases c <;> rfl

end skipIf

/-- One register read after one register write. -/
theorem State.readV_writeV (s : State) (x r : RegNo) (b : Byte) :
    (s.writeV x b).readV r = if r = x then b else s.readV r := by
  simp only [State.readV, State.writeV, Fin.getElem_fin, Vector.getElem_set]
  by_cases h : r = x
  · simp [h]
  · simp [h, Fin.val_ne_of_ne (Ne.symm h)]

@[simp] theorem State.readV_writeV_same (s : State) (x : RegNo) (b : Byte) : (s.writeV x b).readV x = b := by
  simp [State.readV_writeV]

theorem State.readV_writeV_other (s : State) (x r : RegNo) (b : Byte) (h : r ≠ x) :
    (s.writeV x b).readV r = s.readV r := by
  simp [State.readV_writeV, h]

/-- Registers are read from the `v` field alone. -/
theorem State.readV_congr {s t : State} (h : t.v = s.v) (r : RegNo) : t.readV r = s.readV r := by
  simp [State.readV, h]

@[simp] theorem State.readV_begin (s : State) (r : RegNo) : s.begin.readV r = s.readV r := rfl
@[simp] theorem State.readV_jump (s : State) (a : Word) (r : RegNo) : (s.jump a).readV r = s.readV r := rfl
@[simp] theorem State.readV_skipIf (s : State) (c : Bool) (r : RegNo) : (s.skipIf c).readV r = s.readV r :=
  State.readV_congr (State.skipIf_v s c) r
@[simp] theorem State.readV_drawRand (s : State) (r : RegNo) : s.drawRand.2.readV r = s.readV r := rfl
@[simp] theorem readV_takeFatal (c : HaltCause) (s : State) (r : RegNo) : (takeFatal c s).readV r = s.readV r := rfl

/-- The block load: V0..Vx come from memory, the registers above x stay. -/
theorem State.readV_loadBlock (s : State) (x r : RegNo) (a : Nat) :
    (s.loadBlock x a).readV r = if r ≤ x then s.mem.read (a + r.val) else s.readV r := by
  simp [State.readV, State.loadBlock]

/-- A flag and a result written: the result is final where x = F (R130). -/
theorem State.readV_writeFlagged (s : State) (x r : RegNo) (flag result : Byte) :
    (s.writeFlagged x flag result).readV r = if r = x then result else if r = VF then flag else s.readV r := by
  simp [State.writeFlagged, State.readV_writeV]

end Sys2Proof.Machine
end

