-- ==== Sys2Proof/Laws/Ops.lean ====
section
/-! SUPPORT. One lemma for each shared operation that says everything it can do. -/

namespace Sys2Proof.Machine

/-! ## How an instruction ends -/

@[simp] theorem complete_ok (s t : State) : complete s (.ok t) = .next t := rfl
@[simp] theorem complete_error (s : State) (c : HaltCause) : complete s (.error c) = .next (takeFatal c s) := rfl
@[simp] theorem guarded_none (t : State) : guarded none t = .ok t := rfl
@[simp] theorem guarded_some (c : HaltCause) (t : State) : guarded (some c) t = .error c := rfl

/-- An instruction always ends with a next state: the handler's, or the state at the start with the error taken. -/
theorem complete_eq_next {s t : State} {r : Except HaltCause State} (h : complete s r = .next t) :
    r = .ok t ∨ ∃ c, r = .error c ∧ t = takeFatal c s := by
  cases r with
  | ok u => exact .inl (by simpa using h)
  | error c => exact .inr ⟨c, rfl, by simpa using h.symm⟩

/-- A guarded handler: the check passed and the body is the outcome, or the check's error is. -/
theorem complete_guarded_eq_next {s t body : State} {kind : AccessKind} {base count : Nat}
    (h : complete s (guarded (checkRange kind base count) body) = .next t) :
    ((count = 0 ∨ base + count ≤ Config.memSize) ∧ t = body) ∨
      ((0 < count ∧ Config.memSize < base + count) ∧
        t = takeFatal (.addressError kind (max base Config.memSize)) s) := by
  cases hc : checkRange kind base count with
  | none =>
    rw [hc] at h
    exact .inl ⟨checkRange_eq_none.1 hc, by simpa using h.symm⟩
  | some c =>
    obtain ⟨hr, rfl⟩ := checkRange_eq_some.1 hc
    rw [hc] at h
    exact .inr ⟨hr, by simpa using h.symm⟩

/-! ## Timers -/

/-- A tick lowers a timer by one and stops at zero (R96). -/
@[simp] theorem countDown_toNat (t : Byte) : (countDown t).toNat = t.toNat - 1 := by
  unfold countDown
  split
  next h =>
    have := t.isLt
    simp only [BitVec.toNat_sub]
    simp
    omega
  next h => omega

/-- What precedes every handler leaves status Ok and both timers ticked (R93, R96). -/
theorem State.begin_completed (s : State) : Completed s s.begin := ⟨rfl, by simp [Ticked]⟩

/-! ## The call stack -/

/-- A push with room on the stack (R113). -/
theorem State.pushReturn_room {s : State} (h : s.sp < s.stackDepth) :
    s.pushReturn = .ok { s with stack := s.stack.set s.sp s.pc, sp := s.sp + 1 } :=
  if_pos h

/-- A push on a full stack (R113, R203). -/
theorem State.pushReturn_full {s : State} (h : s.stackDepth ≤ s.sp) : s.pushReturn = .error .stackOverflow :=
  if_neg (by omega)

/-- A pop of a stack that holds something (R111). -/
theorem State.popReturn_some {s : State} (h : 0 < s.sp) (hs : s.sp ≤ s.stackDepth) :
    s.popReturn = .ok { s with
      sp := s.sp - 1, pc := s.stack[s.sp - 1]'(Nat.lt_of_lt_of_le (Nat.sub_lt h Nat.one_pos) hs) } :=
  dif_pos ⟨h, hs⟩

/-- A pop of an empty stack (R111, R202). -/
theorem State.popReturn_empty {s : State} (h : s.sp = 0) : s.popReturn = .error .stackUnderflow :=
  dif_neg (by omega)

/-- Everything a pop can do. -/
theorem State.popReturn_cases (s : State) :
    (∃ h : 0 < s.sp ∧ s.sp ≤ s.stackDepth, s.popReturn = .ok { s with
        sp := s.sp - 1, pc := s.stack[s.sp - 1]'(Nat.lt_of_lt_of_le (Nat.sub_lt h.1 Nat.one_pos) h.2) }) ∨
      ((s.sp = 0 ∨ s.stackDepth < s.sp) ∧ s.popReturn = .error .stackUnderflow) := by
  by_cases h : 0 < s.sp ∧ s.sp ≤ s.stackDepth
  · exact .inl ⟨h, dif_pos h⟩
  · exact .inr ⟨by omega, dif_neg h⟩

/-- Everything a push can do. -/
theorem State.pushReturn_cases (s : State) :
    (s.sp < s.stackDepth ∧ s.pushReturn = .ok { s with stack := s.stack.set s.sp s.pc, sp := s.sp + 1 }) ∨
      (s.stackDepth ≤ s.sp ∧ s.pushReturn = .error .stackOverflow) := by
  rcases Nat.lt_or_ge s.sp s.stackDepth with h | h
  · exact .inl ⟨h, State.pushReturn_room h⟩
  · exact .inr ⟨h, State.pushReturn_full h⟩

/-! ## Keys -/

/-- The pressed keys are the set bits of KEYS (R30). -/
theorem mem_pressedKeys {keys : BitVec Config.numKeys} {k : KeyNo} :
    k ∈ pressedKeys keys ↔ keys.getLsbD k.val = true := by
  simp [pressedKeys]

/-- What a key draw can answer (R188): a pressed key, or none because no key is pressed. -/
theorem State.drawKey_cases (s : State) :
    (∃ k : KeyNo, s.keys.getLsbD k.val = true ∧
        s.drawKey = some (BitVec.ofNat 8 k.val, { s with draws := s.draws + 1 })) ∨
      (pressedKeys s.keys = [] ∧ s.drawKey = none) := by
  unfold State.drawKey
  cases h : selectKey s.keys (Config.keyChoice s.draws) with
  | some k => exact .inl ⟨k, mem_pressedKeys.1 (List.mem_of_getElem? h), rfl⟩
  | none =>
    refine .inr ⟨?_, rfl⟩
    by_contra hne
    have hpos := List.length_pos_iff.2 hne
    simp only [selectKey, List.getElem?_eq_none_iff] at h
    exact absurd (Nat.mod_lt (Config.keyChoice s.draws) hpos) (by omega)

/-- A key draw answers none only when no bit of KEYS is set. -/
theorem pressedKeys_eq_nil {keys : BitVec Config.numKeys} : pressedKeys keys = [] ↔ keys = 0 := by
  constructor
  · intro hnil
    apply BitVec.eq_of_getLsbD_eq
    intro j hj
    have hnot : ¬keys.getLsbD j = true := fun hb => by
      have hmem : (⟨j, hj⟩ : KeyNo) ∈ pressedKeys keys := mem_pressedKeys.2 hb
      rw [hnil] at hmem
      cases hmem
    simpa using hnot
  · rintro rfl
    refine List.eq_nil_iff_forall_not_mem.2 fun k hk => ?_
    have := mem_pressedKeys.1 hk
    simp at this

end Sys2Proof.Machine
end

