-- ==== Sys2Proof/Laws/PerInstr.lean ====
section
/-! SUPPORT. For every instruction: its row of the opcode map is a row of the table, and selects its encoding
(spec/30_encoding.md R72, R75). -/

namespace Sys2Proof.Laws.EncodeFitsRow

/-- The word of the instruction belongs to the instruction's row of R75. -/
def Statement (i : Instr) : Prop := i.row ∈ opcodeTable ∧ i.row.selects (encode i) = true

theorem cls : Statement .cls := ⟨by decide, by decide⟩

theorem ret : Statement .ret := ⟨by decide, by decide⟩

theorem jp (nnn : BitVec 12) : Statement (.jp nnn) := by
  refine ⟨by simp [Instr.row, opcodeTable, opcodeRowsLow, opcodeRowsRegister, opcodeRowsHigh], ?_⟩
  exact beq_iff_eq.2 ((encodeNNN_and_top ..).trans rfl)

theorem call (nnn : BitVec 12) : Statement (.call nnn) := by
  refine ⟨by simp [Instr.row, opcodeTable, opcodeRowsLow, opcodeRowsRegister, opcodeRowsHigh], ?_⟩
  exact beq_iff_eq.2 ((encodeNNN_and_top ..).trans rfl)

theorem seImm (x : RegNo) (kk : Byte) : Statement (.seImm x kk) := by
  refine ⟨by simp [Instr.row, opcodeTable, opcodeRowsLow, opcodeRowsRegister, opcodeRowsHigh], ?_⟩
  exact beq_iff_eq.2 ((encodeXKK_and_top ..).trans rfl)

theorem sneImm (x : RegNo) (kk : Byte) : Statement (.sneImm x kk) := by
  refine ⟨by simp [Instr.row, opcodeTable, opcodeRowsLow, opcodeRowsRegister, opcodeRowsHigh], ?_⟩
  exact beq_iff_eq.2 ((encodeXKK_and_top ..).trans rfl)

theorem seReg (x y : RegNo) : Statement (.seReg x y) := by
  refine ⟨by simp [Instr.row, opcodeTable, opcodeRowsLow, opcodeRowsRegister, opcodeRowsHigh], ?_⟩
  exact beq_iff_eq.2 ((encodeXYN_and_sub ..).trans rfl)

theorem ldImm (x : RegNo) (kk : Byte) : Statement (.ldImm x kk) := by
  refine ⟨by simp [Instr.row, opcodeTable, opcodeRowsLow, opcodeRowsRegister, opcodeRowsHigh], ?_⟩
  exact beq_iff_eq.2 ((encodeXKK_and_top ..).trans rfl)

theorem addImm (x : RegNo) (kk : Byte) : Statement (.addImm x kk) := by
  refine ⟨by simp [Instr.row, opcodeTable, opcodeRowsLow, opcodeRowsRegister, opcodeRowsHigh], ?_⟩
  exact beq_iff_eq.2 ((encodeXKK_and_top ..).trans rfl)

theorem ldReg (x y : RegNo) : Statement (.ldReg x y) := by
  refine ⟨by simp [Instr.row, opcodeTable, opcodeRowsLow, opcodeRowsRegister, opcodeRowsHigh], ?_⟩
  exact beq_iff_eq.2 ((encodeXYN_and_sub ..).trans rfl)

theorem orReg (x y : RegNo) : Statement (.orReg x y) := by
  refine ⟨by simp [Instr.row, opcodeTable, opcodeRowsLow, opcodeRowsRegister, opcodeRowsHigh], ?_⟩
  exact beq_iff_eq.2 ((encodeXYN_and_sub ..).trans rfl)

theorem andReg (x y : RegNo) : Statement (.andReg x y) := by
  refine ⟨by simp [Instr.row, opcodeTable, opcodeRowsLow, opcodeRowsRegister, opcodeRowsHigh], ?_⟩
  exact beq_iff_eq.2 ((encodeXYN_and_sub ..).trans rfl)

theorem xorReg (x y : RegNo) : Statement (.xorReg x y) := by
  refine ⟨by simp [Instr.row, opcodeTable, opcodeRowsLow, opcodeRowsRegister, opcodeRowsHigh], ?_⟩
  exact beq_iff_eq.2 ((encodeXYN_and_sub ..).trans rfl)

theorem addReg (x y : RegNo) : Statement (.addReg x y) := by
  refine ⟨by simp [Instr.row, opcodeTable, opcodeRowsLow, opcodeRowsRegister, opcodeRowsHigh], ?_⟩
  exact beq_iff_eq.2 ((encodeXYN_and_sub ..).trans rfl)

theorem sub (x y : RegNo) : Statement (.sub x y) := by
  refine ⟨by simp [Instr.row, opcodeTable, opcodeRowsLow, opcodeRowsRegister, opcodeRowsHigh], ?_⟩
  exact beq_iff_eq.2 ((encodeXYN_and_sub ..).trans rfl)

theorem shr (x y : RegNo) : Statement (.shr x y) := by
  refine ⟨by simp [Instr.row, opcodeTable, opcodeRowsLow, opcodeRowsRegister, opcodeRowsHigh], ?_⟩
  exact beq_iff_eq.2 ((encodeXYN_and_sub ..).trans rfl)

theorem subn (x y : RegNo) : Statement (.subn x y) := by
  refine ⟨by simp [Instr.row, opcodeTable, opcodeRowsLow, opcodeRowsRegister, opcodeRowsHigh], ?_⟩
  exact beq_iff_eq.2 ((encodeXYN_and_sub ..).trans rfl)

theorem shl (x y : RegNo) : Statement (.shl x y) := by
  refine ⟨by simp [Instr.row, opcodeTable, opcodeRowsLow, opcodeRowsRegister, opcodeRowsHigh], ?_⟩
  exact beq_iff_eq.2 ((encodeXYN_and_sub ..).trans rfl)

theorem sneReg (x y : RegNo) : Statement (.sneReg x y) := by
  refine ⟨by simp [Instr.row, opcodeTable, opcodeRowsLow, opcodeRowsRegister, opcodeRowsHigh], ?_⟩
  exact beq_iff_eq.2 ((encodeXYN_and_sub ..).trans rfl)

theorem ldI (nnn : BitVec 12) : Statement (.ldI nnn) := by
  refine ⟨by simp [Instr.row, opcodeTable, opcodeRowsLow, opcodeRowsRegister, opcodeRowsHigh], ?_⟩
  exact beq_iff_eq.2 ((encodeNNN_and_top ..).trans rfl)

theorem jpV0 (nnn : BitVec 12) : Statement (.jpV0 nnn) := by
  refine ⟨by simp [Instr.row, opcodeTable, opcodeRowsLow, opcodeRowsRegister, opcodeRowsHigh], ?_⟩
  exact beq_iff_eq.2 ((encodeNNN_and_top ..).trans rfl)

theorem rnd (x : RegNo) (kk : Byte) : Statement (.rnd x kk) := by
  refine ⟨by simp [Instr.row, opcodeTable, opcodeRowsLow, opcodeRowsRegister, opcodeRowsHigh], ?_⟩
  exact beq_iff_eq.2 ((encodeXKK_and_top ..).trans rfl)

theorem drw (x y : RegNo) (n : Nat) : Statement (.drw x y n) := by
  refine ⟨by simp [Instr.row, opcodeTable, opcodeRowsLow, opcodeRowsRegister, opcodeRowsHigh], ?_⟩
  exact beq_iff_eq.2 ((encodeXYN_and_top ..).trans rfl)

theorem skp (x : RegNo) : Statement (.skp x) := by
  refine ⟨by simp [Instr.row, opcodeTable, opcodeRowsLow, opcodeRowsRegister, opcodeRowsHigh], ?_⟩
  exact beq_iff_eq.2 ((encodeXKK_and_sub ..).trans rfl)

theorem sknp (x : RegNo) : Statement (.sknp x) := by
  refine ⟨by simp [Instr.row, opcodeTable, opcodeRowsLow, opcodeRowsRegister, opcodeRowsHigh], ?_⟩
  exact beq_iff_eq.2 ((encodeXKK_and_sub ..).trans rfl)

theorem ldVxDt (x : RegNo) : Statement (.ldVxDt x) := by
  refine ⟨by simp [Instr.row, opcodeTable, opcodeRowsLow, opcodeRowsRegister, opcodeRowsHigh], ?_⟩
  exact beq_iff_eq.2 ((encodeXKK_and_sub ..).trans rfl)

theorem ldVxK (x : RegNo) : Statement (.ldVxK x) := by
  refine ⟨by simp [Instr.row, opcodeTable, opcodeRowsLow, opcodeRowsRegister, opcodeRowsHigh], ?_⟩
  exact beq_iff_eq.2 ((encodeXKK_and_sub ..).trans rfl)

theorem ldDtVx (x : RegNo) : Statement (.ldDtVx x) := by
  refine ⟨by simp [Instr.row, opcodeTable, opcodeRowsLow, opcodeRowsRegister, opcodeRowsHigh], ?_⟩
  exact beq_iff_eq.2 ((encodeXKK_and_sub ..).trans rfl)

theorem ldStVx (x : RegNo) : Statement (.ldStVx x) := by
  refine ⟨by simp [Instr.row, opcodeTable, opcodeRowsLow, opcodeRowsRegister, opcodeRowsHigh], ?_⟩
  exact beq_iff_eq.2 ((encodeXKK_and_sub ..).trans rfl)

theorem addI (x : RegNo) : Statement (.addI x) := by
  refine ⟨by simp [Instr.row, opcodeTable, opcodeRowsLow, opcodeRowsRegister, opcodeRowsHigh], ?_⟩
  exact beq_iff_eq.2 ((encodeXKK_and_sub ..).trans rfl)

theorem ldF (x : RegNo) : Statement (.ldF x) := by
  refine ⟨by simp [Instr.row, opcodeTable, opcodeRowsLow, opcodeRowsRegister, opcodeRowsHigh], ?_⟩
  exact beq_iff_eq.2 ((encodeXKK_and_sub ..).trans rfl)

theorem ldB (x : RegNo) : Statement (.ldB x) := by
  refine ⟨by simp [Instr.row, opcodeTable, opcodeRowsLow, opcodeRowsRegister, opcodeRowsHigh], ?_⟩
  exact beq_iff_eq.2 ((encodeXKK_and_sub ..).trans rfl)

theorem ldMemVx (x : RegNo) : Statement (.ldMemVx x) := by
  refine ⟨by simp [Instr.row, opcodeTable, opcodeRowsLow, opcodeRowsRegister, opcodeRowsHigh], ?_⟩
  exact beq_iff_eq.2 ((encodeXKK_and_sub ..).trans rfl)

theorem ldVxMem (x : RegNo) : Statement (.ldVxMem x) := by
  refine ⟨by simp [Instr.row, opcodeTable, opcodeRowsLow, opcodeRowsRegister, opcodeRowsHigh], ?_⟩
  exact beq_iff_eq.2 ((encodeXKK_and_sub ..).trans rfl)

end Sys2Proof.Laws.EncodeFitsRow
end

