-- ==== Sys2Proof/Laws/Step.lean ====
section
/-! SUPPORT. The inversion of a step: everything it can do, once. -/

namespace Sys2Proof.Machine

/-- The fetch that succeeds: PC is at most 0xFFE and the word is the two bytes there (R92). -/
theorem State.fetch_eq_ok {s : State} {op : Word} :
    s.fetch = .ok op ↔ s.pc.toNat + 2 ≤ Config.memSize ∧ op = s.mem.readWord s.pc.toNat := by
  unfold State.fetch
  cases hc : checkRange .fetch s.pc.toNat 2 with
  | none =>
    have := checkRange_eq_none.1 hc
    simp only [Except.ok.injEq]
    exact ⟨fun h => ⟨by omega, h.symm⟩, fun h => h.2.symm⟩
  | some c =>
    have := (checkRange_eq_some.1 hc).1
    simp only [reduceCtorEq, false_iff, not_and]
    omega

/-- The fetch that faults (R92). -/
theorem State.fetch_eq_error {s : State} {c : HaltCause} :
    s.fetch = .error c ↔
      Config.memSize < s.pc.toNat + 2 ∧ c = .addressError .fetch (max s.pc.toNat Config.memSize) := by
  unfold State.fetch
  cases hc : checkRange .fetch s.pc.toNat 2 with
  | none =>
    have := checkRange_eq_none.1 hc
    simp only [reduceCtorEq, false_iff, not_and]
    omega
  | some d =>
    obtain ⟨h, rfl⟩ := checkRange_eq_some.1 hc
    simp only [Except.error.injEq]
    exact ⟨fun e => ⟨h.2, e.symm⟩, fun e => e.2.symm⟩

/-- What a step that answers a next state did, in the priority of R208. -/
inductive StepCase (s : State) : State → Prop where
  | halted (c : HaltCause) (hh : s.halt = some c) : StepCase s (haltedStep c s)
  | waiting (x : RegNo) (hh : s.halt = none) (hw : s.wait = some x) : StepCase s (waitingStep x s)
  | fetchFault (c : HaltCause) (hh : s.halt = none) (hw : s.wait = none) (hf : s.fetch = .error c) :
      StepCase s (takeFatal c s)
  | illegal (op : Word) (why : Illegal) (hh : s.halt = none) (hw : s.wait = none) (hf : s.fetch = .ok op)
      (hd : decode op = .error why) : StepCase s (takeDecodeError op s)
  | ran (op : Word) (i : Instr) (t : State) (hh : s.halt = none) (hw : s.wait = none) (hf : s.fetch = .ok op)
      (hd : decode op = .ok i) (he : exec i s = .next t) : StepCase s t

/-- Every step that answers a next state is one of these cases. -/
theorem step_cases {s t : State} (h : step s = .next t) : StepCase s t := by
  unfold step engineCycle fetchAndExecute executeWord at h
  split at h
  next c hh => cases h; exact .halted c hh
  next hh =>
    split at h
    next x hw => cases h; exact .waiting x hh hw
    next hw =>
      split at h
      next c hf => cases h; exact .fetchFault c hh hw hf
      next op hf =>
        split at h
        next why hd => cases h; exact .illegal op why hh hw hf hd
        next i hd => exact .ran op i t hh hw hf hd h

/-- A waiting step with a key pressed, or with none (R187). -/
theorem waitingStep_cases (x : RegNo) (s : State) :
    (∃ k : KeyNo, s.keys.getLsbD k.val = true ∧
        waitingStep x s = { (State.writeV { s with draws := s.draws + 1 } x (BitVec.ofNat 8 k.val)) with
          pc := s.pc + 2, wait := none, status := .ok, intents := [] }) ∨
      (pressedKeys s.keys = [] ∧ waitingStep x s = { s with status := .waiting, intents := [] }) := by
  unfold waitingStep
  obtain ⟨k, hk, he⟩ | ⟨hk, he⟩ := s.drawKey_cases
  · exact .inl ⟨k, hk, by rw [he]⟩
  · exact .inr ⟨hk, by rw [he]⟩

end Sys2Proof.Machine
end

