-- ==== Sys2Proof/Tests/Slice0.lean ====
section
/-! SUPPORT. The model's own tests. The expected results are those of spec/95_test_vectors.md (V and W numbers) or worked by hand
from the rule named. Then, for every obligation with hypotheses, a concrete case that meets them (`witness_<obligation>`). -/

namespace Sys2Proof.Tests

open Sys2Proof.Machine

/-- What `f` sees of the next state. -/
def seen {α : Type} (r : StepResult) (f : State → α) : Option α :=
  match r with
  | .next t => some (f t)
  | .fault _ => none
  | .refused _ => none

/-- The step that runs the word `w` placed at PC. -/
def ran {α : Type} (w : Nat) (s : State) (f : State → α) : Option α := seen (step (s.withFetchWord 16 w)) f

/-- The state after reset, but for the font, of which no test of one instruction reads a byte. -/
def bare : State := { State.reset with mem := [] }

/-- `bare` with some registers set. -/
def regs (l : List (RegNo × Byte)) : State := l.foldl (fun s p => s.writeV p.1 p.2) bare

/-- Registers set, I set, bytes stored from I up. -/
def data (l : List (RegNo × Byte)) (i : Word) (bytes : List Byte) : State :=
  { regs l with i := i, mem := bare.mem.writeBytes i.toNat bytes }

/-- The cells of a row that are lit, by column. -/
def litRow (r : Fin 32) (s : State) : List (Fin 64) := (List.finRange 64).filter fun c => s.fb.get c r

/-! ## Well-formedness -/

theorem test_wf_refuses_count_16 : (Instr.drw 0 0 16).wf = false := by decide
theorem test_wf_accepts_count_15 : (Instr.drw 0 0 15).wf = true := by decide

/-! ## Decoding: every constructor, by a word written out from its row of R75 -/

theorem test_decode_control :
    decode 0b0000000011100000 = .ok .cls ∧ decode 0b0000000011101110 = .ok .ret ∧
    decode 0b0001101010111100 = .ok (.jp 0xABC) ∧ decode 0b0010101010111100 = .ok (.call 0xABC) ∧
    decode 0b0011110110101011 = .ok (.seImm 13 0xAB) ∧ decode 0b0100110110101011 = .ok (.sneImm 13 0xAB) ∧
    decode 0b0101110101110000 = .ok (.seReg 13 7) ∧ decode 0b1001110101110000 = .ok (.sneReg 13 7) ∧
    decode 0b1011101010111100 = .ok (.jpV0 0xABC) := by decide

theorem test_decode_alu :
    decode 0b0110110110101011 = .ok (.ldImm 13 0xAB) ∧ decode 0b0111110110101011 = .ok (.addImm 13 0xAB) ∧
    decode 0b1000110101110000 = .ok (.ldReg 13 7) ∧ decode 0b1000110101110001 = .ok (.orReg 13 7) ∧
    decode 0b1000110101110010 = .ok (.andReg 13 7) ∧ decode 0b1000110101110011 = .ok (.xorReg 13 7) ∧
    decode 0b1000110101110100 = .ok (.addReg 13 7) ∧ decode 0b1000110101110101 = .ok (.sub 13 7) ∧
    decode 0b1000110101110110 = .ok (.shr 13 7) ∧ decode 0b1000110101110111 = .ok (.subn 13 7) ∧
    decode 0b1000110101111110 = .ok (.shl 13 7) ∧ decode 0b1100110110101011 = .ok (.rnd 13 0xAB) := by decide

theorem test_decode_rest :
    decode 0b1010101010111100 = .ok (.ldI 0xABC) ∧ decode 0b1101110101111001 = .ok (.drw 13 7 9) ∧
    decode 0b1110110110011110 = .ok (.skp 13) ∧ decode 0b1110110110100001 = .ok (.sknp 13) ∧
    decode 0b1111110100000111 = .ok (.ldVxDt 13) ∧ decode 0b1111110100001010 = .ok (.ldVxK 13) ∧
    decode 0b1111110100010101 = .ok (.ldDtVx 13) ∧ decode 0b1111110100011000 = .ok (.ldStVx 13) ∧
    decode 0b1111110100011110 = .ok (.addI 13) ∧ decode 0b1111110100101001 = .ok (.ldF 13) ∧
    decode 0b1111110100110011 = .ok (.ldB 13) ∧ decode 0b1111110101010101 = .ok (.ldMemVx 13) ∧
    decode 0b1111110101100101 = .ok (.ldVxMem 13) := by decide

/-- V9 to V11 and W9, and the neighbours of 00E0 and 00EE. -/
theorem test_decode_illegal :
    decode 0x0123 = .error .family0 ∧ decode 0x0000 = .error .family0 ∧ decode 0x01E0 = .error .family0 ∧
    decode 0x00EF = .error .family0 ∧ decode 0x5121 = .error .family5 ∧ decode 0x8008 = .error .family8 ∧
    decode 0x800F = .error .family8 ∧ decode 0x912F = .error .family9 ∧ decode 0xE000 = .error .familyE ∧
    decode 0xF000 = .error .familyF ∧ decode 0xF066 = .error .familyF := by decide

/-- The words of the host's two questions: 16 bits, the first byte high. -/
theorem test_decodeTableWord :
    decodeTableWord 16 0xD7B9 = some (.drw 7 11 9) ∧ decodeTableWord 16 0x00E0 = some .cls ∧
    decodeTableWord 16 0x0000 = none := by decide

theorem test_withFetchWord :
    ((bare.withFetchWord 16 0x1234).mem.read 0x200, (bare.withFetchWord 16 0x1234).mem.read 0x201) =
      (0x12, 0x34) := by decide

/-! ## The engine -/

theorem test_V1_ticks : ran 0x6007 { bare with dt := 3, st := 1 }
    (fun t => (t.pc, t.readV 0, t.dt, t.st, t.soundActive)) = some (0x202, 7, 2, 0, false) := by decide

theorem test_V3_last_word : ran 0x6001 { bare with pc := 0xFFE }
    (fun t => (t.status, t.readV 0, t.pc)) = some (.ok, 1, 0x1000) := by decide

theorem test_V4_fetch_past_the_end : seen (step { bare with pc := 0x1000, dt := 2 })
    (fun t => (t.status, t.pc, t.dt)) = some (.fatal (.addressError .fetch 0x1000), 0x1000, 2) := by decide

theorem test_V5_fetch_second_byte : seen (step { bare with pc := 0xFFF })
    (fun t => (t.halt, t.pc)) = some (some (.addressError .fetch 0x1000), 0xFFF) := by decide

theorem test_V6_halted : seen (step { bare with halt := some .stackUnderflow, dt := 9 })
    (fun t => (t.status, t.pc, t.dt)) = some (.fatal .stackUnderflow, 0x200, 9) := by decide

theorem test_V7_odd_fetch : ran 0x6A2B { bare with pc := 0x201 }
    (fun t => (t.readV 10, t.pc)) = some (0x2B, 0x203) := by decide

theorem test_W9_decode_error : ran 0x0123 { bare with dt := 5, st := 3 }
    (fun t => (t.status, t.pc, t.dt, t.st, t.halt)) = some (.decodeError 0x0123 0x200, 0x202, 5, 3, none) := by
  decide

/-! ## Control flow -/

theorem test_V20_jp : ran 0x1234 bare (·.pc) = some 0x234 := by decide
theorem test_V21_call : ran 0x2300 bare (fun t => (t.stack[0]?, t.sp, t.pc)) = some (some 0x202, 1, 0x300) := by
  decide
theorem test_V25_call_full : ran 0x2200 { bare with sp := 16, dt := 4 }
    (fun t => (t.status, t.sp, t.pc, t.dt)) = some (.fatal .stackOverflow, 16, 0x200, 4) := by decide
/-- A stack of another depth: the second call of two is the last that fits. -/
theorem test_call_depth_2 : ran 0x2300 { bare with stack := [0x202, 0], sp := 1 } (·.status) = some .ok ∧
    ran 0x2300 { bare with stack := [0x202, 0x202], sp := 2 } (·.status) = some (.fatal .stackOverflow) := by decide
theorem test_V22_ret : ran 0x00EE { bare with sp := 1, stack := bare.stack.set 0 0x202, pc := 0x300 }
    (fun t => (t.sp, t.pc, t.stack[0]?)) = some (0, 0x202, some 0x202) := by decide
theorem test_V23_ret_empty : ran 0x00EE { bare with dt := 4 }
    (fun t => (t.status, t.pc, t.dt)) = some (.fatal .stackUnderflow, 0x200, 4) := by decide
theorem test_V26_V27_seImm : ran 0x3005 (regs [(0, 5)]) (·.pc) = some 0x204 ∧
    ran 0x3006 (regs [(0, 5)]) (·.pc) = some 0x202 := by decide
theorem test_V28_sneImm : ran 0x4005 (regs [(0, 5)]) (·.pc) = some 0x202 ∧
    ran 0x4006 (regs [(0, 5)]) (·.pc) = some 0x204 := by decide
theorem test_V29_seReg_sneReg : ran 0x5120 (regs [(1, 7), (2, 7)]) (·.pc) = some 0x204 ∧
    ran 0x9120 (regs [(1, 7), (2, 7)]) (·.pc) = some 0x202 := by decide
theorem test_V33_skip_past_the_end : ran 0x3000 { bare with pc := 0xFFC } (·.pc) = some 0x1000 := by decide
theorem test_V31_jpV0 : ran 0xB300 (regs [(0, 0x10)]) (·.pc) = some 0x310 := by decide
theorem test_V32_jpV0_highest : ran 0xBFFF (regs [(0, 0xFF)]) (fun t => (t.pc, t.status)) = some (0x10FE, .ok) := by
  decide

/-! ## Arithmetic -/

theorem test_V40_ldImm : ran 0x6A2B bare (·.readV 10) = some 0x2B := by decide
theorem test_V41_addImm : ran 0x7002 (regs [(0, 0xFF), (15, 7)]) (fun t => (t.readV 0, t.readV 15)) =
    some (0x01, 7) := by decide
theorem test_V42_ldReg : ran 0x8010 (regs [(1, 0x42)]) (·.readV 0) = some 0x42 := by decide
theorem test_V43_orReg : ran 0x8011 (regs [(0, 0x0F), (1, 0xF0), (15, 9)]) (fun t => (t.readV 0, t.readV 15)) =
    some (0xFF, 9) := by decide
theorem test_V43_andReg : ran 0x8012 (regs [(0, 0x0F), (1, 0xF0), (15, 9)]) (fun t => (t.readV 0, t.readV 15)) =
    some (0x00, 9) := by decide
theorem test_V43_xorReg : ran 0x8013 (regs [(0, 0x0F), (1, 0xF0), (15, 9)]) (fun t => (t.readV 0, t.readV 15)) =
    some (0xFF, 9) := by decide
theorem test_V45_addReg_no_carry : ran 0x8014 (regs [(0, 0x80), (1, 0x7F)]) (fun t => (t.readV 0, t.readV 15)) =
    some (0xFF, 0) := by decide
/-- The second is V47: the old VF is the operand. -/
theorem test_V46_V47_addReg_with_VF : ran 0x8F14 (regs [(15, 0xFF), (1, 1)]) (·.readV 15) = some 0 ∧
    ran 0x80F4 (regs [(15, 1), (0, 0xFF)]) (fun t => (t.readV 0, t.readV 15)) = some (0, 1) := by decide
theorem test_V48_V49_sub : ran 0x8015 (regs [(0, 5), (1, 5)]) (fun t => (t.readV 0, t.readV 15)) = some (0, 0) ∧
    ran 0x8015 (regs [(0, 6), (1, 5)]) (fun t => (t.readV 0, t.readV 15)) = some (1, 1) := by decide
theorem test_V50_sub_borrow : ran 0x8015 (regs [(0, 3), (1, 5)]) (fun t => (t.readV 0, t.readV 15)) =
    some (0xFE, 0) := by decide
theorem test_V51_shr : ran 0x8016 (regs [(0, 5), (1, 0xAA)]) (fun t => (t.readV 0, t.readV 1, t.readV 15)) =
    some (2, 0xAA, 1) := by decide
theorem test_V52_shr_VF : ran 0x8F06 (regs [(15, 3)]) (·.readV 15) = some 1 := by decide
theorem test_V53_subn : ran 0x8017 (regs [(0, 5), (1, 5)]) (fun t => (t.readV 0, t.readV 15)) = some (0, 0) := by
  decide
theorem test_V54_subn_borrow : ran 0x8017 (regs [(0, 5), (1, 3)]) (fun t => (t.readV 0, t.readV 15)) =
    some (0xFE, 0) := by decide
theorem test_V55_V56_shl : ran 0x800E (regs [(0, 0x81)]) (fun t => (t.readV 0, t.readV 15)) = some (2, 1) ∧
    ran 0x800E (regs [(0, 0x40)]) (fun t => (t.readV 0, t.readV 15)) = some (0x80, 0) := by decide
theorem test_V57_shl_VF : ran 0x8FFE (regs [(15, 0x80)]) (·.readV 15) = some 0 := by decide
/-- V59: any draw masked by 0. The draw is a free value, so nothing else can be tested of it. -/
theorem test_V59_rnd : seen (exec (.rnd 3 0) (regs [(3, 9)])) (fun t => (t.readV 3, t.draws)) = some (0, 1) := by
  simp [exec, execRnd, complete, seen, State.drawRand, regs, bare, State.reset, State.begin, State.tick]

/-! ## Index and memory -/

theorem test_V60_ldI : ran 0xA300 bare (·.i) = some 0x300 := by decide
theorem test_V61_addI : ran 0xF01E (data [(0, 1)] 0xFFF []) (fun t => (t.i, t.readV 15, t.status)) =
    some (0x1000, 0, .ok) := by decide
theorem test_V62_addI_wraps : ran 0xF01E (data [(0, 2)] 0xFFFF []) (·.i) = some 1 := by decide
theorem test_V63_ldF : ran 0xF029 (regs [(0, 0x0A)]) (·.i) = some 0x32 := by decide
theorem test_V65_ldF_no_mask : ran 0xF029 (regs [(0, 0xFF)]) (·.i) = some 0x4FB := by decide
theorem test_W4_ldB : ran 0xF033 (data [(0, 234)] 0xFFD []) (fun t => t.mem.readBytes 0xFFD 3) = some [2, 3, 4] := by
  decide
theorem test_V67_ldB_past_the_end : ran 0xF033 (data [(0, 1)] 0xFFE []) (fun t => (t.status, t.mem.readBytes 0xFFE 2)) =
    some (.fatal (.addressError .write 0x1000), [0, 0]) := by decide
theorem test_V73_ldMemVx_at_0 : ran 0xF055 (data [(0, 0xEE)] 0 []) (fun t => (t.mem.readBytes 0 2, t.i)) =
    some ([0xEE, 0x00], 0) := by decide
theorem test_V69_ldMemVx_past_the_end : ran 0xF255 (data [(0, 1), (1, 2), (2, 3)] 0xFFE [])
    (fun t => (t.status, t.mem.readBytes 0xFFE 2)) = some (.fatal (.addressError .write 0x1000), [0, 0]) := by decide
theorem test_ldVxMem : ran 0xF265 (data [(3, 9)] 0x400 [1, 2, 3, 4])
    (fun t => (t.readV 0, t.readV 1, t.readV 2, t.readV 3, t.i)) = some (1, 2, 3, 9, 0x400) := by decide
theorem test_V70_ldVxMem_past_the_end : ran 0xF065 (data [] 0x1000 []) (·.status) =
    some (.fatal (.addressError .read 0x1000)) := by decide

/-! ## Display -/

/-- W6 -/
theorem test_cls : ran 0x00E0 { bare with fb := bare.fb.put 5 0 true }
    (fun t => (t.fb.get 5 0, t.intents, t.readV 15)) = some (false, [.clear], 0) := by decide

/-- V80: eight bits from column 60 wrap to column 0. -/
theorem test_V80_drw_wraps : ran 0xD011 (data [(0, 60)] 0x300 [0xFF]) (fun t => (litRow 0 t, t.readV 15)) =
    some ([0, 1, 2, 3, 60, 61, 62, 63], 0) := by decide

/-- V81: 124 less 64 is 60, and a bit that lands on column 64 is clipped. -/
theorem test_V81_drw_clips : ran 0xD011 (data [(0, 124)] 0x300 [0xFF]) (fun t => litRow 0 t) =
    some [60, 61, 62, 63] := by decide

/-! ## Timers and input -/

theorem test_ldVxDt : ran 0xF107 { bare with dt := 3 } (fun t => (t.readV 1, t.dt)) = some (2, 2) := by decide
theorem test_V90_ldDtVx : ran 0xF015 { regs [(0, 3)] with dt := 9, st := 9 } (fun t => (t.dt, t.st)) =
    some (3, 8) := by decide
theorem test_V91_ldStVx : ran 0xF418 (regs [(4, 1)]) (fun t => (t.st, t.soundActive)) = some (1, true) := by decide
theorem test_V92_skp_sknp : ran 0xE29E { regs [(2, 5)] with keys := 0x20 } (·.pc) = some 0x204 ∧
    ran 0xE2A1 { regs [(2, 5)] with keys := 0x20 } (·.pc) = some 0x202 := by decide
theorem test_V93_skp_sknp_no_mask : ran 0xE29E { regs [(2, 0x15)] with keys := 0x20 } (·.pc) = some 0x202 ∧
    ran 0xE2A1 { regs [(2, 0x15)] with keys := 0x20 } (·.pc) = some 0x204 := by decide
theorem test_V95_ldVxK_waits : ran 0xF50A { bare with dt := 5 } (fun t => (t.status, t.dt, t.pc, t.wait)) =
    some (.waiting, 4, 0x200, some 5) := by decide

theorem test_select_the_only_key (choice : Nat) : selectKey (BitVec.twoPow 16 10) choice = some 10 := by
  have h : pressedKeys (BitVec.twoPow 16 10) = [10] := by decide
  simp [selectKey, h, Nat.mod_one]

/-- V97: the key ends the wait; no tick. -/
theorem test_V97_waiting_step_completes :
    seen (step { bare with wait := some 5, dt := 4, status := .waiting, keys := BitVec.twoPow 16 10 })
      (fun t => (t.status, t.readV 5, t.pc, t.wait, t.dt)) = some (.ok, 0x0A, 0x202, none, 4) := by
  simp only [step, engineCycle, bare, State.reset, State.resetWith_halt, waitingStep, State.drawKey, test_select_the_only_key, seen]
  simp [State.writeV, State.readV]

/-- V94 with one key: the `Fx0A` completes in its own step. -/
theorem test_ldVxK_completes :
    seen (exec (.ldVxK 5) { bare with keys := BitVec.twoPow 16 10 }) (fun t => (t.status, t.readV 5, t.pc)) =
      some (.ok, 0x0A, 0x202) := by
  simp only [exec, execLdVxK, bare, State.reset, State.begin, State.tick, State.drawKey, test_select_the_only_key, seen, complete]
  simp [State.writeV, State.readV]

/-! ## Reset and load -/

/-- A font of zeros, so that the whole memory of a load is the ROM. -/
def noFont : Config.Params := { font := Vector.replicate 80 0, stackDepth := 16 }

theorem test_V100_load : (resetLoad noFont [0x12, 0x34] bare).mem = [(0x200, 0x12), (0x201, 0x34)] ∧
    (resetLoad noFont [0x12, 0x34] bare).status = .ok := by decide
theorem test_V101_empty_load : seen (step (resetLoad noFont [] bare)) (·.status) = some (.decodeError 0 0x200) := by
  decide
theorem test_V104_glyph_A : State.reset.mem.readBytes 0x32 5 = [0xF0, 0x90, 0xF0, 0x90, 0x90] := by
  simp [Memory.readBytes, State.reset, Memory.read_withFont]
  decide
theorem test_font_sizes : Config.defaultFont.toList.length = 80 ∧ State.reset.mem.read 0x4F = 0x80 := by
  simp [State.reset, Memory.read_withFont]
  decide
theorem test_step_before_load : transact noFont .step none = .refused .beforeResetLoad := rfl

/-- Log 37: no level is reported before a load, and the level of ST is after one. -/
theorem test_sound_level_of_key_events : transact noFont (.keyDown 5) none = .next (none, ⟨none, [], none, none⟩) ∧
    (silent (some { bare with st := 1 })).soundActive = some true := ⟨rfl, rfl⟩

/-! ## Witnesses: the hypotheses of the obligations can be met -/

theorem witness_DecodeOfEncodeIsTheInstruction : (Instr.drw 15 15 15).wf = true := by decide
theorem witness_EncodeOfDecodeIsTheWord : decode 0xDFFF = .ok (.drw 15 15 15) := by decide

/-- Both clauses. -/
theorem witness_DecodeFollowsTheOpcodeMap : decode 0x8FFE = .ok (.shl 15 15) ∧ (Instr.shl 15 15).row ∈ opcodeTable ∧
    (0x8FFE : Word) &&& (Instr.shl 15 15).row.mask = (Instr.shl 15 15).row.pattern := by decide

/-- Both clauses, at the two lengths where they meet. -/
theorem witness_ResetLoadPlacesTheRomOrHalts :
    (List.replicate 3584 (7 : Byte)).length ≤ 3584 ∧ 3583 < (List.replicate 3584 (7 : Byte)).length ∧
    3584 < (List.replicate 3585 (7 : Byte)).length := by
  simp only [List.length_replicate]
  decide

theorem witness_invariant (p : Config.Params) : (State.resetWith p).Inv where
  memory := Memory.reset_wf p
  pcBound := by simp
  stackBound := Nat.zero_le _
  returnBound := fun j _ h => absurd h (Nat.not_lt_zero j)
  waiting := by intro x h; cases h

/-- A loaded block, and one that was never loaded. -/
theorem witness_EveryTransactionKeepsTheInvariant :
    ((State.resetWith noFont).Inv ∧ ∃ b r, transact noFont .step (some (State.resetWith noFont)) = .next (b, r)) ∧
    (∃ b r, transact noFont (.resetLoad [0x12, 0x00]) none = .next (b, r)) :=
  ⟨⟨witness_invariant noFont, _, _, rfl⟩, ⟨_, _, rfl⟩⟩

theorem witness_StepKeepsTheInvariant :
    ∃ t, (State.resetWith noFont).Inv ∧ step (State.resetWith noFont) = .next t :=
  ⟨_, witness_invariant noFont, rfl⟩

/-- The last PC a fetch can read at. -/
def lastWord : State := { bare with pc := 0xFFE, mem := [(0xFFE, 0x60), (0xFFF, 0x01)] }

theorem witness_StepRunsTheDecodedInstruction :
    lastWord.halt = none ∧ lastWord.wait = none ∧ lastWord.pc.toNat + 1 ≤ 0xFFF ∧
    decode (lastWord.mem.read lastWord.pc.toNat ++ lastWord.mem.read (lastWord.pc.toNat + 1)) = .ok (.ldImm 0 1) := by
  decide

theorem witness_FetchIsBigEndian : lastWord.pc.toNat + 1 ≤ 0xFFF := by decide

/-- One step of each status, Waiting in an entry step and in a waiting step; the last clause aside, since no step has the
status of a load. -/
theorem witness_StatusOfAStepTellsItsEffect :
    seen (step lastWord) (·.status) = some .ok ∧
    ran 0xF50A bare (·.status) = some .waiting ∧
    seen (step { bare with wait := some 3 }) (·.status) = some .waiting ∧
    seen (step bare) (·.status) = some (.decodeError 0 0x200) ∧
    seen (step { bare with pc := 0xFFF }) (·.status) = some (.fatal (.addressError .fetch 0x1000)) := by decide

/-- A step that ticks, and each of the five that do not: halted, waiting, fetch fault, illegal word, fatal handler. -/
theorem witness_TimersTickInLegalStepsOnly :
    (seen (step lastWord) (·.halt) = some none ∧ lastWord.fetch = .ok 0x6001 ∧ decode 0x6001 = .ok (.ldImm 0 1)) ∧
    (∃ t, step { bare with halt := some .stackUnderflow } = .next t) ∧
    (∃ t, step { bare with wait := some 3 } = .next t) ∧
    { bare with pc := 0xFFF }.fetch = .error (.addressError .fetch 0x1000) ∧
    (bare.fetch = .ok 0 ∧ decode 0 = .error .family0) ∧
    seen (step (bare.withFetchWord 16 0x00EE)) (·.halt) = some (some .stackUnderflow) :=
  ⟨by decide, ⟨_, rfl⟩, ⟨_, rfl⟩, by rfl, ⟨by rfl, by rfl⟩, by decide⟩

/-- A halted block, and both values of the offending address. -/
theorem witness_HaltedAndFetchFaultStepsAreFatal :
    { bare with halt := some .stackOverflow }.halt = some .stackOverflow ∧
    (0xFFF < { bare with pc := 0xFFF }.pc.toNat + 1 ∧ ¬0xFFF < { bare with pc := 0xFFF }.pc.toNat) ∧
    0xFFF < { bare with pc := 0x1000 }.pc.toNat := by decide

theorem witness_DecodeErrorAdvancesPcOnly :
    { bare with pc := 0xFFE }.pc.toNat + 1 ≤ 0xFFF ∧
    decode (bare.mem.read 0xFFE ++ bare.mem.read 0xFFF) = .error .family0 := by decide

/-- One instruction that meets the hypotheses of every clause, and one with a fatal outcome. -/
theorem witness_OnlyTheListedInstructionsWriteEachField :
    (∃ t, exec (.addImm 15 1) bare = .next t) ∧ seen (exec .ret bare) (·.halt) = some (some .stackUnderflow) :=
  ⟨⟨_, rfl⟩, by decide⟩
theorem witness_NoStepChangesKeys : ∃ t, step { bare with keys := 0x8001 } = .next t := ⟨_, rfl⟩

theorem witness_CanonicalMemoriesThatReadAlikeAreEqual :
    Memory.wf [(0x000, 0xEE), (0x200, 0x12), (0xFFF, 1)] ∧ ¬Memory.wf [(0x000, 0x00)] ∧ ¬Memory.wf [(0x1000, 1)] := by
  decide

/-- The store reaches exactly the last byte of memory. -/
theorem witness_StoreIsSeenByTheNextFetch :
    let s : State := { data [(0, 0x60), (1, 0x07)] 0xFFE [] with pc := 0xFFC }
    s.mem.wf ∧ s.pc.toNat + 2 ≤ 0xFFE ∧ s.i = s.pc + 2 ∧ 1 ≤ (1 : RegNo).val ∧ s.i.toNat + (1 : RegNo).val ≤ 0xFFF := by
  decide

/-- Each clause at its first offending I, and above memory. -/
theorem witness_DataAccessPastTheEndIsFatal :
    0xFFF < (data [] 0xFFE []).i.toNat + 2 ∧ 0xFFF < (data [] 0xFFF []).i.toNat + (1 : RegNo).val ∧
    0xFFF < (data [] 0x1000 []).i.toNat + (0 : RegNo).val ∧ (0 < 2 ∧ 0xFFF < (data [] 0xFFF []).i.toNat + 2 - 1) := by
  decide

/-- A pressed key, the same code above 0xF, and an unpressed key. -/
theorem witness_KeySkipsTestTheLevelOfKeys :
    (∃ k : KeyNo, (0x0F : Byte).toNat = k.val ∧ (0x8000 : BitVec 16).getLsbD k.val = true) ∧
    ¬(∃ k : KeyNo, (0x1F : Byte).toNat = k.val ∧ (0x8000 : BitVec 16).getLsbD k.val = true) ∧
    ¬(∃ k : KeyNo, (0x0E : Byte).toNat = k.val ∧ (0x8000 : BitVec 16).getLsbD k.val = true) := by decide

/-- The last free entry, and the full stack. -/
theorem witness_CallPushesTheAdvancedPc : { bare with sp := 15 }.sp < bare.stackDepth ∧
    { bare with sp := 16 }.sp = bare.stackDepth := by decide

/-- The full stack, and the empty one. -/
theorem witness_ReturnPopsIntoPc : (0 < { bare with sp := 16 }.sp ∧ { bare with sp := 16 }.sp ≤ bare.stackDepth) ∧ bare.sp = 0 := by decide

theorem witness_JumpsAndSkipsChangeOnlyPc : ∃ t, exec (.sknp 3) bare = .next t := ⟨_, rfl⟩

/-- A call and a return that complete. -/
theorem witness_CallAndReturnChangeOnlyPcAndStack :
    (∃ t, t.halt = none ∧ exec (.call 0x300) { bare with sp := 15 } = .next t) ∧
    (∃ t, t.halt = none ∧ exec .ret { bare with sp := 1 } = .next t) := ⟨⟨_, rfl, rfl⟩, ⟨_, rfl, rfl⟩⟩

/-- x ≠ F, for the clauses on VF. -/
theorem witness_AddImmediateAndLogicResults : (14 : RegNo) ≠ VF := by decide
theorem witness_AddRegistersWithCarry : (0 : RegNo) ≠ VF := by decide
theorem witness_SubtractionsWithStrictFlag : (0 : RegNo) ≠ VF := by decide
theorem witness_ShiftsWithTheBitShiftedOut : (14 : RegNo) ≠ VF := by decide
theorem witness_RegisterInstructionsChangeOnlyVx : ∃ t, exec (.addImm 15 0xFF) bare = .next t := ⟨_, rfl⟩
theorem witness_FlagInstructionsChangeOnlyVxAndVF : ∃ t, exec (.subn 15 15) bare = .next t := ⟨_, rfl⟩
theorem witness_IndexInstructionsChangeOnlyI : ∃ t, exec (.addI 15) { bare with i := 0xFFFF } = .next t :=
  ⟨_, rfl⟩

/-- The last I at which the three digits fit. -/
theorem witness_BcdStoresTheThreeDigits : (data [] 0xFFD []).mem.wf ∧ (data [] 0xFFD []).i.toNat + 2 ≤ 0xFFF := by decide

/-- The last I at which all sixteen registers fit. -/
theorem witness_StoreBlockCopiesTheRegisters :
    (data [] 0xFF0 []).mem.wf ∧ (data [] 0xFF0 []).i.toNat + (15 : RegNo).val ≤ 0xFFF := by decide
theorem witness_LoadBlockCopiesTheBytes : (data [] 0xFF0 []).i.toNat + (15 : RegNo).val ≤ 0xFFF := by decide

theorem witness_StoresChangeOnlyTheirBytes :
    (∃ t, t.halt = none ∧ exec (.ldB 15) { bare with i := 0xFFD } = .next t) ∧
    (∃ t, t.halt = none ∧ exec (.ldMemVx 15) { bare with i := 0xFF0 } = .next t) :=
  ⟨⟨_, rfl, rfl⟩, ⟨_, rfl, rfl⟩⟩

/-- A state with the memory and the I that the store left. -/
theorem witness_StoreThenLoadRestoresTheRegisters :
    ∃ t u : State, exec (.ldMemVx 15) { bare with i := 0xFF0 } = .next t ∧ u.mem = t.mem ∧ u.i = t.i ∧
      u.readV 0 ≠ t.readV 0 := by
  refine ⟨_, { bare.writeV 0 9 with i := 0xFF0, mem := _ }, rfl, rfl, rfl, ?_⟩
  decide

/-- A sprite row in the last byte of memory. -/
def spriteAtEnd : State := { bare with i := 0xFFF, mem := [(0xFFF, 0x81)] }

/-- n = 1: the row's first bit touches (0, 0). n = 0: nothing is touched. -/
theorem witness_DrawInvertsTheTouchedCells :
    (spriteAtEnd.i.toNat + 1 - 1 ≤ 0xFFF) ∧ Touches 0 0 1 spriteAtEnd 0 0 ∧ ¬Touches 0 0 0 spriteAtEnd 0 0 := by
  refine ⟨by decide, ⟨0, 0, by decide, by decide, by decide, .inl (by decide), by decide⟩, ?_⟩
  rintro ⟨j, b, h, -⟩
  omega

theorem witness_DrawEmitsOneIntentPerToggle : ∃ t, exec (.drw 0 0 1) spriteAtEnd = .next t := ⟨_, rfl⟩
theorem witness_DrawChangesOnlyCellsAndVF : ∃ t, t.halt = none ∧ exec (.drw 0 0 1) spriteAtEnd = .next t :=
  ⟨_, rfl, rfl⟩

/-- W7 at the end of memory: the coordinates V0 and V1 are as before the first draw, which reports no collision. -/
theorem witness_DrawingTwiceRestoresTheFramebuffer :
    ∃ t u, exec (.drw 0 1 1) spriteAtEnd = .next t ∧ t.readV 0 = spriteAtEnd.readV 0 ∧
      t.readV 1 = spriteAtEnd.readV 1 ∧ exec (.drw 0 1 1) t = .next u ∧ t.readV VF = 0 :=
  ⟨_, _, rfl, rfl, rfl, rfl, by decide⟩

theorem witness_SecondDrawCollidesIffSomeBitIsUnclipped :
    ∃ t u, exec (.drw 0 1 1) spriteAtEnd = .next t ∧ t.readV 0 = spriteAtEnd.readV 0 ∧
      t.readV 1 = spriteAtEnd.readV 1 ∧ exec (.drw 0 1 1) t = .next u := ⟨_, _, rfl, rfl, rfl, rfl⟩

/-- Log 32: one sprite bit, its cell lit before the first draw; the second draw reports no collision. -/
theorem test_R171_second_draw_of_a_lit_cell :
    ((seen (exec (.drw 0 0 1) { data [] 0x300 [0x80] with fb := bare.fb.put 0 0 true }) id).bind fun t =>
      seen (exec (.drw 0 0 1) t) fun u => (t.readV 15, u.readV 15)) = some (1, 0) := by decide

theorem witness_TimerWritesChangeOnlyTheirTimer : (∃ t, exec (.ldDtVx 15) bare = .next t) ∧
    (∃ t, exec (.ldStVx 15) bare = .next t) := ⟨⟨_, rfl⟩, ⟨_, rfl⟩⟩
theorem witness_KeyWaitCompletesWithAPressedKey : { bare with keys := 0x8000 }.keys ≠ 0 := by decide
theorem witness_KeyWaitSuspendsWithoutAKey : bare.keys = 0 := rfl

/-- Both clauses. -/
theorem witness_WaitingStepOnlyChecksTheKeys :
    let s : State := { bare with wait := some 15 }
    s.halt = none ∧ s.wait = some 15 ∧ s.keys = 0 ∧ (keyDown 15 s).keys ≠ 0 := by decide

theorem witness_KeySelectionAdmitsExactlyThePressedKeys :
    selectKey 0x8001 1 = some 15 ∧ (0x8001 : BitVec 16).getLsbD 15 = true ∧ selectKey 0 3 = none := by decide

end Sys2Proof.Tests
end

section
/-! PROOFS. Reset: what each accessor answers right after it (spec/10_state.md R47). -/

namespace Sys2Proof.Machine

@[simp] theorem State.readV_resetWith (p : Config.Params) (r : RegNo) : (State.resetWith p).readV r = 0 :=
  Vector.getElem_replicate r.isLt

@[simp] theorem State.soundActive_resetWith (p : Config.Params) : (State.resetWith p).soundActive = false := rfl

/-- Inside FONT's 80 bytes, memory with a font loaded reads as the font. -/
theorem Memory.read_withFont_of_lt (font : Config.Font) {a : Nat} (h : a < 0x50) :
    (Memory.withFont font).read a = font[a] := by
  have hlen : a < font.toList.length := by rwa [Vector.length_toList]
  rw [Memory.read_withFont, List.getD_eq_getElem _ _ hlen, Vector.getElem_toList]

/-- Past FONT's 80 bytes, memory with a font loaded reads as zero. -/
theorem Memory.read_withFont_of_le (font : Config.Font) {a : Nat} (h : 0x50 ≤ a) :
    (Memory.withFont font).read a = 0 := by
  have hlen : font.toList.length ≤ a := by rwa [Vector.length_toList]
  rw [Memory.read_withFont, List.getD_eq_default _ _ hlen]

/-- Glyph A of the default FONT (spec/95_test_vectors.md V104), at 0x32 = 5 * 0xA. -/
theorem Memory.readBytes_defaultFont_glyphA :
    (Memory.withFont Config.defaultFont).readBytes 0x32 5 = [0xF0, 0x90, 0xF0, 0x90, 0x90] := by
  simp only [Memory.readBytes, Memory.read_withFont]
  decide

/-- Settles O5: field by field for the reset state, with memory as the font's read lemmas give it, and glyph A for the
default FONT. -/
theorem resetLeavesTheValuesOfTheTable : Obligations.ResetLeavesTheValuesOfTheTable := by
  refine ⟨fun p => ⟨State.readV_resetWith p, State.resetWith_i p, State.resetWith_pc p, State.resetWith_sp p,
    State.resetWith_stack p, State.resetWith_dt p, State.resetWith_st p,
    fun _ ha => Memory.read_withFont_of_le p.font ha, fun _ ha => Memory.read_withFont_of_lt p.font ha,
    Framebuffer.get_unlit, fun k => ?keys,
    State.resetWith_wait p, State.resetWith_halt p, State.soundActive_resetWith p⟩, rfl, ?depth,
    Memory.readBytes_defaultFont_glyphA⟩
  case keys => exact BitVec.getLsbD_zero
  case depth => exact List.length_replicate

end Sys2Proof.Machine
end

section
/-! PROOFS. What one instruction can do, said once, and the fields it may write (spec/10_state.md R35). -/

namespace Sys2Proof.Machine

/-- The six instructions with a fatal outcome (spec/60_exceptions.md R202 to R204). -/
def MayFail (i : Instr) : Prop :=
  i = .ret ∨ (∃ nnn, i = .call nnn) ∨ (∃ x y n, i = .drw x y n) ∨ (∃ x, i = .ldB x) ∨ (∃ x, i = .ldMemVx x) ∨
    ∃ x, i = .ldVxMem x

/-- The six skips (spec/40_engine.md R98). -/
def IsSkip (i : Instr) : Prop :=
  (∃ x kk, i = .seImm x kk) ∨ (∃ x kk, i = .sneImm x kk) ∨ (∃ x y, i = .seReg x y) ∨ (∃ x y, i = .sneReg x y) ∨
    (∃ x, i = .skp x) ∨ ∃ x, i = .sknp x

/-- What instruction `i` can leave behind when it runs at `s`: a fatal outcome, or `s.begin` with the fields of R35 that
it writes. -/
inductive ExecCase (s : State) : Instr → State → Prop where
  | fatal {i : Instr} (c : HaltCause) (hi : MayFail i) : ExecCase s i (takeFatal c s)
  | regs {i : Instr} (v : Vector Byte Config.numV) (hv : SameRegsBut (writtenRegs i) s { s.begin with v := v }) :
      ExecCase s i { s.begin with v := v }
  | skip {i : Instr} (a : Word) (hi : IsSkip i) (ha : a = s.pc + 2 ∨ a = s.pc + 4) :
      ExecCase s i { s.begin with pc := a }
  | jp (nnn : BitVec 12) : ExecCase s (.jp nnn) (s.begin.jump (address nnn))
  | jpV0 (nnn : BitVec 12) : ExecCase s (.jpV0 nnn) (s.begin.jump (addressPlusV0 nnn (s.readV 0)))
  | ret (h : 0 < s.sp ∧ s.sp ≤ s.stackDepth) :
      ExecCase s .ret { s.begin with
        sp := s.sp - 1, pc := s.stack[s.sp - 1]'(Nat.lt_of_lt_of_le (Nat.sub_lt h.1 Nat.one_pos) h.2) }
  | call (nnn : BitVec 12) (h : s.sp < s.stackDepth) :
      ExecCase s (.call nnn) { s.begin with
        stack := s.stack.set s.sp (s.pc + 2), sp := s.sp + 1, pc := address nnn }
  | ldI (nnn : BitVec 12) : ExecCase s (.ldI nnn) { s.begin with i := address nnn }
  | addI (x : RegNo) : ExecCase s (.addI x) { s.begin with i := indexPlus s.i (s.readV x) }
  | ldF (x : RegNo) : ExecCase s (.ldF x) { s.begin with i := glyphAddress (s.readV x) }
  | ldB (x : RegNo) (h : s.dataAddress + 3 ≤ Config.memSize) :
      ExecCase s (.ldB x) { s.begin with mem := s.mem.writeBytes s.dataAddress (bcdDigits (s.readV x)) }
  | ldMemVx (x : RegNo) (h : s.dataAddress + (x.val + 1) ≤ Config.memSize) :
      ExecCase s (.ldMemVx x) { s.begin with mem := s.mem.writeBytes s.dataAddress (s.readBlock x) }
  | cls : ExecCase s .cls { s.begin with fb := Framebuffer.unlit, intents := [.clear] }
  | drw (x y : RegNo) (n : Nat) (h : n = 0 ∨ s.dataAddress + n ≤ Config.memSize) {d : Draw}
      (hd : d = drawSprite s.fb (s.readV x).toNat (s.readV y).toNat (s.mem.readBytes s.dataAddress n)) :
      ExecCase s (.drw x y n) { s.begin.writeV VF (collisionFlag d) with fb := d.fb, intents := d.intents }
  | rnd (x : RegNo) (kk : Byte) :
      ExecCase s (.rnd x kk) (s.begin.drawRand.2.writeV x (Config.randByte s.draws &&& kk))
  | ldDtVx (x : RegNo) : ExecCase s (.ldDtVx x) { s.begin with dt := s.readV x }
  | ldStVx (x : RegNo) : ExecCase s (.ldStVx x) { s.begin with st := s.readV x }
  | keyTaken (x : RegNo) (k : KeyNo) (hk : s.keys.getLsbD k.val = true) :
      ExecCase s (.ldVxK x) (State.writeV { s.begin with draws := s.draws + 1 } x (BitVec.ofNat 8 k.val))
  | keyAwaited (x : RegNo) (hk : pressedKeys s.keys = []) :
      ExecCase s (.ldVxK x) { s.begin with pc := s.pc, wait := some x, status := .waiting }

/-! ## Registers -/

theorem SameRegsBut.writeV {s t : State} (h : ∀ r, t.readV r = s.readV r) (x : RegNo) (b : Byte) :
    SameRegsBut [x] s (t.writeV x b) := fun r hr =>
  (State.readV_writeV_other t x r b (List.ne_of_not_mem_cons hr)).trans (h r)

theorem SameRegsBut.writeFlagged {s t : State} (h : ∀ r, t.readV r = s.readV r) (x : RegNo) (flag b : Byte) :
    SameRegsBut [x, VF] s (t.writeFlagged x flag b) := by
  intro r hr
  simp only [List.mem_cons, List.not_mem_nil, or_false, not_or] at hr
  rw [State.readV_writeFlagged, if_neg hr.1, if_neg hr.2, h]

theorem SameRegsBut.loadBlock (s : State) (x : RegNo) (a : Nat) :
    SameRegsBut (writtenRegs (.ldVxMem x)) s (s.begin.loadBlock x a) := by
  intro r hr
  have hrx : ¬r ≤ x := by simpa [writtenRegs] using hr
  rw [State.readV_loadBlock, if_neg hrx, State.readV_begin]

/-! ## The case of each instruction -/

theorem ExecCase.writeV {s : State} {i : Instr} (x : RegNo) (b : Byte) (hi : writtenRegs i = [x]) :
    ExecCase s i (s.begin.writeV x b) :=
  .regs _ (hi ▸ SameRegsBut.writeV (s.readV_begin) x b)

theorem ExecCase.writeFlagged {s : State} {i : Instr} (x : RegNo) (flag b : Byte) (hi : writtenRegs i = [x, VF]) :
    ExecCase s i (s.begin.writeFlagged x flag b) :=
  .regs _ (hi ▸ SameRegsBut.writeFlagged (s.readV_begin) x flag b)

theorem ExecCase.skipIf {s : State} {i : Instr} (c : Bool) (hi : IsSkip i) : ExecCase s i (s.begin.skipIf c) := by
  cases c with
  | false => exact .skip _ hi (.inl rfl)
  | true => exact .skip _ hi (.inr (BitVec.add_assoc ..))

/-- Everything an instruction can do. -/
theorem exec_cases {i : Instr} {s t : State} (h : exec i s = .next t) : ExecCase s i t := by
  cases i with
  | cls => cases h; exact .cls
  | ret =>
    obtain ⟨hsp, he⟩ | ⟨-, he⟩ := s.begin.popReturn_cases
    · simp only [exec, execRet, he] at h
      cases h; exact .ret (s := s) hsp
    · simp only [exec, execRet, he] at h
      cases h; exact .fatal _ (by simp [MayFail])
  | jp nnn => cases h; exact .jp nnn
  | call nnn =>
    obtain ⟨hsp, he⟩ | ⟨-, he⟩ := s.begin.pushReturn_cases
    · simp only [exec, execCall, he] at h
      cases h; exact .call (s := s) nnn hsp
    · simp only [exec, execCall, he] at h
      cases h; exact .fatal _ (by simp [MayFail])
  | seImm x kk => cases h; exact .skipIf _ (by simp [IsSkip])
  | sneImm x kk => cases h; exact .skipIf _ (by simp [IsSkip])
  | seReg x y => cases h; exact .skipIf _ (by simp [IsSkip])
  | ldImm x kk => cases h; exact .writeV x _ rfl
  | addImm x kk => cases h; exact .writeV x _ rfl
  | ldReg x y => cases h; exact .writeV x _ rfl
  | orReg x y => cases h; exact .writeV x _ rfl
  | andReg x y => cases h; exact .writeV x _ rfl
  | xorReg x y => cases h; exact .writeV x _ rfl
  | addReg x y => cases h; exact .writeFlagged x _ _ rfl
  | sub x y => cases h; exact .writeFlagged x _ _ rfl
  | shr x y => cases h; exact .writeFlagged x _ _ rfl
  | subn x y => cases h; exact .writeFlagged x _ _ rfl
  | shl x y => cases h; exact .writeFlagged x _ _ rfl
  | sneReg x y => cases h; exact .skipIf _ (by simp [IsSkip])
  | ldI nnn => cases h; exact .ldI nnn
  | jpV0 nnn => cases h; exact .jpV0 nnn
  | rnd x kk => cases h; exact .rnd x kk
  | drw x y n =>
    obtain ⟨hr, rfl⟩ | ⟨-, rfl⟩ := complete_guarded_eq_next h
    · exact .drw x y n hr rfl
    · exact .fatal _ (by simp [MayFail])
  | skp x => cases h; exact .skipIf _ (by simp [IsSkip])
  | sknp x => cases h; exact .skipIf _ (by simp [IsSkip])
  | ldVxDt x => cases h; exact .writeV x _ rfl
  | ldVxK x =>
    obtain ⟨k, hk, he⟩ | ⟨hk, he⟩ := s.begin.drawKey_cases
    · simp only [exec, execLdVxK, he] at h
      cases h; exact .keyTaken x k hk
    · simp only [exec, execLdVxK, he] at h
      cases h; exact .keyAwaited x hk
  | ldDtVx x => cases h; exact .ldDtVx x
  | ldStVx x => cases h; exact .ldStVx x
  | addI x => cases h; exact .addI x
  | ldF x => cases h; exact .ldF x
  | ldB x =>
    obtain ⟨hr, rfl⟩ | ⟨-, rfl⟩ := complete_guarded_eq_next h
    · exact .ldB x (by omega)
    · exact .fatal _ (by simp [MayFail])
  | ldMemVx x =>
    obtain ⟨hr, rfl⟩ | ⟨-, rfl⟩ := complete_guarded_eq_next h
    · exact .ldMemVx x (by omega)
    · exact .fatal _ (by simp [MayFail])
  | ldVxMem x =>
    obtain ⟨-, rfl⟩ | ⟨-, rfl⟩ := complete_guarded_eq_next h
    · exact .regs _ (SameRegsBut.loadBlock s x _)
    · exact .fatal _ (by simp [MayFail])

/-! ## Who writes each field -/

namespace ExecCase

variable {i : Instr} {s t : State}

theorem sameRegs (h : ExecCase s i t) : SameRegsBut (writtenRegs i) s t := by
  cases h with
  | regs v hv => exact hv
  | drw x y n h hd => exact SameRegsBut.writeV s.readV_begin VF _
  | rnd x kk => exact SameRegsBut.writeV (t := s.begin.drawRand.2) s.readV_begin x _
  | keyTaken x k hk => exact SameRegsBut.writeV (t := { s.begin with draws := s.draws + 1 }) s.readV_begin x _
  | _ => exact fun _ _ => rfl

theorem dt_ticked (h : ExecCase s i t) (hi : ∀ x, i ≠ .ldDtVx x) : t.dt.toNat = s.dt.toNat - 1 ∨ t.dt = s.dt := by
  cases h with
  | fatal => exact .inr rfl
  | ldDtVx x => exact absurd rfl (hi x)
  | _ => exact .inl (countDown_toNat s.dt)

theorem st_ticked (h : ExecCase s i t) (hi : ∀ x, i ≠ .ldStVx x) : t.st.toNat = s.st.toNat - 1 ∨ t.st = s.st := by
  cases h with
  | fatal => exact .inr rfl
  | ldStVx x => exact absurd rfl (hi x)
  | _ => exact .inl (countDown_toNat s.st)

theorem pc_advanced (h : ExecCase s i t) (hret : i ≠ .ret) (hjp : ∀ nnn, i ≠ .jp nnn) (hcall : ∀ nnn, i ≠ .call nnn)
    (hjpV0 : ∀ nnn, i ≠ .jpV0 nnn) (hskip : ¬IsSkip i) (hkey : ∀ x, i ≠ .ldVxK x) :
    t.pc = s.pc + 2 ∨ ∃ cause, t.status = .fatal cause ∧ t.pc = s.pc := by
  cases h with
  | fatal c => exact .inr ⟨c, rfl, rfl⟩
  | skip a hi => exact absurd hi hskip
  | jp nnn => exact absurd rfl (hjp nnn)
  | jpV0 nnn => exact absurd rfl (hjpV0 nnn)
  | ret => exact absurd rfl hret
  | call nnn => exact absurd rfl (hcall nnn)
  | keyTaken x | keyAwaited x => exact absurd rfl (hkey x)
  | _ => exact .inl rfl

theorem halt_or_fatal (h : ExecCase s i t) :
    t.halt = s.halt ∨ ∃ cause, t = { s with halt := some cause, status := .fatal cause, intents := [] } := by
  cases h with
  | fatal c => exact .inr ⟨c, rfl⟩
  | _ => exact .inl rfl

theorem halt_eq (h : ExecCase s i t) (hi : ¬MayFail i) : t.halt = s.halt := by
  cases h with
  | fatal c hf => exact absurd hf hi
  | _ => rfl

theorem mem_eq (h : ExecCase s i t) (hbcd : ∀ x, i ≠ .ldB x) (hblock : ∀ x, i ≠ .ldMemVx x) : t.mem = s.mem := by
  cases h with
  | ldB x => exact absurd rfl (hbcd x)
  | ldMemVx x => exact absurd rfl (hblock x)
  | _ => rfl

theorem fb_eq_and_intents_eq_nil (h : ExecCase s i t) (hcls : i ≠ .cls) (hdrw : ∀ x y n, i ≠ .drw x y n) :
    t.fb = s.fb ∧ t.intents = [] := by
  cases h with
  | cls => exact absurd rfl hcls
  | drw x y n => exact absurd rfl (hdrw x y n)
  | _ => exact ⟨rfl, rfl⟩

theorem stack_eq_and_sp_eq (h : ExecCase s i t) (hcall : ∀ nnn, i ≠ .call nnn) (hret : i ≠ .ret) :
    t.stack = s.stack ∧ t.sp = s.sp := by
  cases h with
  | call nnn => exact absurd rfl (hcall nnn)
  | ret => exact absurd rfl hret
  | _ => exact ⟨rfl, rfl⟩

theorem length_stack_eq (h : ExecCase s i t) : t.stack.length = s.stack.length := by
  cases h with
  | call => exact List.length_set
  | _ => rfl

theorem i_eq (h : ExecCase s i t) (hld : ∀ nnn, i ≠ .ldI nnn) (hadd : ∀ x, i ≠ .addI x) (hfont : ∀ x, i ≠ .ldF x) :
    t.i = s.i := by
  cases h with
  | ldI nnn => exact absurd rfl (hld nnn)
  | addI x => exact absurd rfl (hadd x)
  | ldF x => exact absurd rfl (hfont x)
  | _ => rfl

theorem wait_eq (h : ExecCase s i t) (hkey : ∀ x, i ≠ .ldVxK x) : t.wait = s.wait := by
  cases h with
  | keyAwaited x => exact absurd rfl (hkey x)
  | _ => rfl

theorem draws_eq (h : ExecCase s i t) (hrnd : ∀ x kk, i ≠ .rnd x kk) (hkey : ∀ x, i ≠ .ldVxK x) :
    t.draws = s.draws := by
  cases h with
  | rnd x kk => exact absurd rfl (hrnd x kk)
  | keyTaken x => exact absurd rfl (hkey x)
  | _ => rfl

theorem keys_eq (h : ExecCase s i t) : t.keys = s.keys := by
  cases h <;> rfl

theorem decodeErrorSeen_eq (h : ExecCase s i t) : t.decodeErrorSeen = s.decodeErrorSeen := by
  cases h <;> rfl

end ExecCase

/-- Settles O18, one lemma over the cases of an instruction for each row of R35's table. -/
theorem onlyTheListedInstructionsWriteEachField : Obligations.OnlyTheListedInstructionsWriteEachField := by
  intro i s t h
  have hc := exec_cases h
  refine ⟨hc.sameRegs, hc.dt_ticked, hc.st_ticked, ?pc, hc.halt_or_fatal, ?halt, hc.mem_eq,
    hc.fb_eq_and_intents_eq_nil, hc.stack_eq_and_sp_eq, hc.length_stack_eq, hc.i_eq, hc.wait_eq, hc.draws_eq,
    hc.keys_eq, hc.decodeErrorSeen_eq⟩
  case pc =>
    intro hret hjp hcall hjpV0 hse hsne hseReg hsneReg hskp hsknp hkey
    exact hc.pc_advanced hret hjp hcall hjpV0 (by simp [IsSkip, *]) hkey
  case halt =>
    intro hret hcall hdrw hbcd hstore hload
    exact hc.halt_eq (by simp [MayFail, *])

/-! ## A whole step -/

/-- Settles O19: a step that runs an instruction changes no key by `ExecCase.keys_eq`, and no other step does. -/
theorem noStepChangesKeys : Obligations.NoStepChangesKeys := by
  intro s t h
  cases step_cases h with
  | halted | fetchFault | illegal => rfl
  | waiting x =>
    obtain ⟨k, -, he⟩ | ⟨-, he⟩ := waitingStep_cases x s
    · rw [he]; rfl
    · rw [he]
  | ran op i t hh hw hf hd he => exact (exec_cases he).keys_eq

end Sys2Proof.Machine
end

section
/-! PROOFS. The invariant (`State.Inv`): reset meets it, every step and every transaction keeps it; and the word of
`Fx0A`, at which a waiting block stands. -/

namespace Sys2Proof

/-! ## Decoding `Fx0A` -/

theorem decodeFamily0_ne_ldVxK (op : Word) (x : RegNo) : decodeFamily0 op ≠ .ok (.ldVxK x) := by
  unfold decodeFamily0
  split
  · simp
  · split <;> simp

theorem decodeFamily8_ne_ldVxK (x y : RegNo) (n : Nat) (z : RegNo) : decodeFamily8 x y n ≠ .ok (.ldVxK z) := by
  unfold decodeFamily8
  split <;> simp

theorem decodeFamilyE_ne_ldVxK (x : RegNo) (kk : Nat) (z : RegNo) : decodeFamilyE x kk ≠ .ok (.ldVxK z) := by
  unfold decodeFamilyE
  split <;> simp

theorem decodeFamilyF_eq_ldVxK {x z : RegNo} {kk : Nat} (h : decodeFamilyF x kk = .ok (.ldVxK z)) :
    kk = 0x0A ∧ x = z := by
  unfold decodeFamilyF at h
  split at h
  case h_2 => exact ⟨rfl, by simpa using h⟩
  all_goals simp at h

/-- A word that decodes to `Fx0A` is the word of that instruction (spec/30_encoding.md R72, R75). -/
theorem encode_of_decode_ldVxK {op : Word} {x : RegNo} (h : decode op = .ok (.ldVxK x)) :
    encode (.ldVxK x) = op := by
  have hfields : (Field.top op).toNat = 0xF ∧ (Field.kk op).toNat = 0x0A ∧ Field.x op = x := by
    have htop := (Field.top op).isLt
    unfold decode at h
    split at h
    case h_1 => exact (decodeFamily0_ne_ldVxK _ _ h).elim
    case h_9 => exact (decodeFamily8_ne_ldVxK _ _ _ _ h).elim
    case h_15 => exact (decodeFamilyE_ne_ldVxK _ _ _ h).elim
    case h_16 =>
      obtain ⟨hkk, hx⟩ := decodeFamilyF_eq_ldVxK h
      simp only [imp_false] at *
      exact ⟨by omega, hkk, hx⟩
    case h_6 => split at h <;> simp at h
    case h_10 => split at h <;> simp at h
    all_goals simp at h
  obtain ⟨htop, hkk, rfl⟩ := hfields
  rw [Field.top_toNat] at htop
  rw [Field.kk_toNat] at hkk
  apply BitVec.eq_of_toNat_eq
  rw [encode, encodeXKK_toNat, Field.x_val]
  simp only [BitVec.reduceToNat]
  omega

namespace Machine

/-! ## Address bounds -/

theorem address_le (nnn : BitVec 12) : (address nnn).toNat ≤ 0xFFF := by
  have := nnn.isLt
  rw [address, BitVec.toNat_setWidth]
  omega

/-- The highest target of `Bnnn` (spec/41_control_flow.md R119). -/
theorem addressPlusV0_le (nnn : BitVec 12) (v0 : Byte) : (addressPlusV0 nnn v0).toNat ≤ 0x10FE := by
  have := nnn.isLt
  have := v0.isLt
  rw [addressPlusV0, BitVec.toNat_ofNat]
  omega

theorem toNat_add_two_le {pc : Word} (h : pc.toNat ≤ 0xFFE) : (pc + 2).toNat ≤ 0x1000 := by bv_omega

theorem toNat_add_four_le {pc : Word} (h : pc.toNat ≤ 0xFFE) : (pc + 4).toNat ≤ 0x10FE := by bv_omega

/-! ## Ways to meet the invariant -/

namespace State.Inv

variable {s t : State}

/-- The invariant speaks of memory, PC, the stack, SP, WAIT and HALT alone. -/
theorem congr (hs : s.Inv) (hmem : t.mem = s.mem) (hpc : t.pc = s.pc) (hstack : t.stack = s.stack) (hsp : t.sp = s.sp)
    (hwait : t.wait = s.wait) (hhalt : t.halt = s.halt) : t.Inv := by
  obtain ⟨hm, hp, hb, hr, hw⟩ := hs
  exact ⟨hmem ▸ hm, hpc ▸ hp, by rw [hsp, State.stackDepth_eq, hstack]; exact hb,
    by rw [hsp]; simpa only [hstack] using hr, by rw [hwait, hhalt, hpc, hmem]; exact hw⟩

/-- With the stack as it was and nothing awaited, what is left to show is the bound of PC and the form of memory. -/
theorem of_same_stack (hs : s.Inv) (hmem : t.mem.wf) (hpc : t.pc.toNat ≤ 0x10FE) (hstack : t.stack = s.stack)
    (hsp : t.sp = s.sp) (hwait : t.wait = none) : t.Inv where
  memory := hmem
  pcBound := hpc
  stackBound := by rw [hsp, State.stackDepth_eq, hstack]; exact hs.stackBound
  returnBound := by rw [hsp]; simpa only [hstack] using hs.returnBound
  waiting := fun _ hx => nomatch hwait.symm.trans hx

/-- A halted block awaits no key. -/
theorem wait_eq_none (hs : s.Inv) {c : HaltCause} (hh : s.halt = some c) : s.wait = none := by
  cases hw : s.wait with
  | none => rfl
  | some x =>
    obtain ⟨hn, -⟩ := hs.waiting x hw
    rw [hn] at hh; cases hh

/-- A pop of a return address in use (R111). -/
theorem pop (hs : s.Inv) (h : 0 < s.sp ∧ s.sp ≤ s.stackDepth) (hmem : t.mem = s.mem)
    (hpc : t.pc = s.stack[s.sp - 1]'(Nat.lt_of_lt_of_le (Nat.sub_lt h.1 Nat.one_pos) h.2))
    (hstack : t.stack = s.stack) (hsp : t.sp = s.sp - 1) (hwait : t.wait = none) : t.Inv where
  memory := hmem ▸ hs.memory
  pcBound := by
    rw [hpc]
    exact Nat.le_trans (hs.returnBound _ _ (Nat.sub_lt h.1 Nat.one_pos)) (by decide)
  stackBound := by
    rw [hsp, State.stackDepth_eq, hstack]
    exact Nat.le_trans (Nat.sub_le ..) hs.stackBound
  returnBound := by
    rw [hsp]
    simp only [hstack]
    exact fun j hj hlt => hs.returnBound j hj (by omega)
  waiting := fun _ hx => nomatch hwait.symm.trans hx

/-- A push of a return address with room on the stack (R113). -/
theorem push (hs : s.Inv) (h : s.sp < s.stackDepth) {a : Word} (ha : a.toNat ≤ 0x1000) (hmem : t.mem = s.mem)
    (hpc : t.pc.toNat ≤ 0x10FE) (hstack : t.stack = s.stack.set s.sp a) (hsp : t.sp = s.sp + 1)
    (hwait : t.wait = none) : t.Inv where
  memory := hmem ▸ hs.memory
  pcBound := hpc
  stackBound := by rw [hsp, State.stackDepth_eq, hstack, List.length_set]; exact h
  returnBound := by
    rw [hsp]
    simp only [hstack, List.length_set, List.getElem_set]
    intro j hj hlt
    split
    next => exact ha
    next hne => exact hs.returnBound j hj (by omega)
  waiting := fun _ hx => nomatch hwait.symm.trans hx

end State.Inv

/-! ## Steps -/

/-- An instruction that runs where its word was fetched keeps the invariant. -/
theorem ExecCase.inv {i : Instr} {s t : State} (h : ExecCase s i t) (hs : s.Inv) (hh : s.halt = none)
    (hw : s.wait = none) (hpc : s.pc.toNat ≤ 0xFFE)
    (hword : ∀ x, i = .ldVxK x → s.mem.readWord s.pc.toNat = encode (.ldVxK x)) : t.Inv := by
  have hnext : (s.pc + 2).toNat ≤ 0x10FE := Nat.le_trans (toNat_add_two_le hpc) (by decide)
  cases h with
  | fatal c => exact hs.of_same_stack hs.memory hs.pcBound rfl rfl hw
  | skip a hi ha =>
    refine hs.of_same_stack hs.memory ?_ rfl rfl hw
    obtain rfl | rfl := ha
    · exact hnext
    · exact toNat_add_four_le hpc
  | jp nnn => exact hs.of_same_stack hs.memory (Nat.le_trans (address_le nnn) (by decide)) rfl rfl hw
  | jpV0 nnn => exact hs.of_same_stack hs.memory (addressPlusV0_le nnn _) rfl rfl hw
  | ret hsp => exact hs.pop hsp rfl rfl rfl rfl hw
  | call nnn hsp =>
    exact hs.push hsp (toNat_add_two_le hpc) rfl (Nat.le_trans (address_le nnn) (by decide)) rfl rfl hw
  | ldB x hr => exact hs.of_same_stack (Memory.writeBytes_wf hs.memory hr) hnext rfl rfl hw
  | ldMemVx x hr =>
    have hlen : (s.readBlock x).length = x.val + 1 := by simp [State.readBlock]
    exact hs.of_same_stack (Memory.writeBytes_wf hs.memory (hlen ▸ hr)) hnext rfl rfl hw
  | keyAwaited x =>
    obtain ⟨hm, hp, hb, hr, -⟩ := hs
    refine ⟨hm, hp, hb, hr, fun y hy => ⟨hh, hpc, ?_⟩⟩
    cases hy
    exact hword x rfl
  | _ => exact hs.of_same_stack hs.memory hnext rfl rfl hw

theorem State.pc_le_of_fetch {s : State} {op : Word} (h : s.fetch = .ok op) : s.pc.toNat ≤ 0xFFE :=
  Nat.le_sub_of_add_le (State.fetch_eq_ok.1 h).1

/-- A waiting step keeps the invariant: a key ends the wait, and without one nothing changes (R187). -/
theorem State.Inv.waitingStep {s : State} (hs : s.Inv) {x : RegNo} (hw : s.wait = some x) :
    (Machine.waitingStep x s).Inv := by
  obtain ⟨-, hpc, -⟩ := hs.waiting x hw
  obtain ⟨k, -, he⟩ | ⟨-, he⟩ := waitingStep_cases x s
  · rw [he]
    exact hs.of_same_stack hs.memory (Nat.le_trans (toNat_add_two_le hpc) (by decide)) rfl rfl rfl
  · rw [he]
    exact hs.congr rfl rfl rfl rfl rfl rfl

/-- Settles O10, by the case of the step and, where an instruction runs, by `ExecCase.inv`. -/
theorem stepKeepsTheInvariant : Obligations.StepKeepsTheInvariant := by
  intro s t hs h
  cases step_cases h with
  | halted c hh => exact hs.congr rfl rfl rfl rfl rfl rfl
  | waiting x hh hw => exact hs.waitingStep hw
  | fetchFault c hh hw hf => exact hs.of_same_stack hs.memory hs.pcBound rfl rfl hw
  | illegal op why hh hw hf hd =>
    have hnext : (s.pc + 2).toNat ≤ 0x1000 := toNat_add_two_le (State.pc_le_of_fetch hf)
    exact hs.of_same_stack hs.memory (Nat.le_trans hnext (by decide)) rfl rfl hw
  | ran op i t hh hw hf hd he =>
    refine (exec_cases he).inv hs hh hw (State.pc_le_of_fetch hf) fun x hi => ?_
    obtain ⟨-, rfl⟩ := State.fetch_eq_ok.1 hf
    rw [hi] at hd
    exact (encode_of_decode_ldVxK hd).symm

/-! ## Reset and transactions -/

theorem State.inv_resetWith (p : Config.Params) : (State.resetWith p).Inv where
  memory := Memory.reset_wf p
  pcBound := by rw [State.resetWith_pc]; decide
  stackBound := Nat.zero_le _
  returnBound := fun j _ h => absurd h (Nat.not_lt_zero j)
  waiting := fun x h => nomatch h

/-- Settles O6. -/
theorem resetMeetsTheInvariant : Obligations.ResetMeetsTheInvariant := State.inv_resetWith

/-- A load leaves a state that meets the invariant, whether it fits or halts the block (R231, R232). -/
theorem inv_resetLoad (p : Config.Params) (rom : List Byte) (s : State) : (resetLoad p rom s).Inv := by
  have hreset := State.inv_resetWith p
  unfold resetLoad
  split
  next => exact hreset.of_same_stack hreset.memory hreset.pcBound rfl rfl rfl
  next hfits =>
    have hend : Config.progBase + rom.length ≤ Config.memSize :=
      Nat.add_le_of_le_sub' (by decide) (Nat.le_of_not_lt hfits)
    exact hreset.of_same_stack (Memory.writeBytes_wf hreset.memory hend) hreset.pcBound rfl rfl rfl

theorem State.Inv.keyDown {s : State} (hs : s.Inv) (k : KeyNo) : (Machine.keyDown k s).Inv :=
  hs.congr rfl rfl rfl rfl rfl rfl

theorem State.Inv.keyUp {s : State} (hs : s.Inv) (k : KeyNo) : (Machine.keyUp k s).Inv :=
  hs.congr rfl rfl rfl rfl rfl rfl

/-- Settles O9, one case for each transaction on a loaded and on a never loaded block. -/
theorem everyTransactionKeepsTheInvariant : Obligations.EveryTransactionKeepsTheInvariant := by
  intro p tr b b' r hb h s' hs'
  subst hs'
  cases tr with
  | resetLoad rom => cases h; exact inv_resetLoad p rom _
  | step =>
    cases b with
    | none => cases h
    | some s =>
      cases hstep : step s with
      | next u =>
        simp only [transact, hstep] at h
        cases h; exact stepKeepsTheInvariant s _ (hb s rfl) hstep
      | fault f => cases f
      | refused f =>
        simp only [transact, hstep] at h
        cases h
  | keyDown k =>
    cases b with
    | none => cases h
    | some s => cases h; exact (hb s rfl).keyDown k
  | keyUp k =>
    cases b with
    | none => cases h
    | some s => cases h; exact (hb s rfl).keyUp k
  | observe =>
    cases b with
    | none => cases h
    | some s => cases h; exact hb _ rfl

end Machine

end Sys2Proof
end

section
/-! PROOFS. What nothing but the host changes, KEYS, and what nothing but the host reads, ST (spec/10_state.md R27, R45). -/

namespace Sys2Proof.Machine

/-! ## KEYS -/

theorem getLsbD_keyDown (k j : KeyNo) (s : State) :
    (keyDown k s).keys.getLsbD j.val = (s.keys.getLsbD j.val || decide (j = k)) := by
  simp [keyDown, Fin.ext_iff, eq_comm]

theorem getLsbD_keyUp (k j : KeyNo) (s : State) :
    (keyUp k s).keys.getLsbD j.val = (s.keys.getLsbD j.val && !decide (j = k)) := by
  simp [keyUp, Fin.ext_iff, eq_comm]

theorem keyDown_keyDown (k : KeyNo) (s : State) : keyDown k (keyDown k s) = keyDown k s := by
  simp only [keyDown, BitVec.or_assoc, BitVec.or_self]

theorem keyUp_keyUp (k : KeyNo) (s : State) : keyUp k (keyUp k s) = keyUp k s := by
  simp only [keyUp, BitVec.and_assoc, BitVec.and_self]

/-- Settles O8, bit by bit for KEYS; the rest of the state is as it was by definition. -/
theorem keyTransactionsChangeOneKey : Obligations.KeyTransactionsChangeOneKey := fun k s =>
  ⟨fun j => getLsbD_keyDown k j s, fun j => getLsbD_keyUp k j s, rfl, rfl, keyDown_keyDown k s, keyUp_keyUp k s⟩

/-! ## ST -/

/-- `s` with another ST. -/
def State.withSt (s : State) (st : Byte) : State := { s with st := st }

section

variable (s : State) (st : Byte)

theorem State.popReturn_withSt : (s.withSt st).popReturn = s.popReturn.map (·.withSt st) := by
  obtain ⟨h, he⟩ | ⟨h, he⟩ := s.popReturn_cases
  · rw [he]; exact State.popReturn_some (s := s.withSt st) h.1 h.2
  · have hnot : ¬(0 < s.sp ∧ s.sp ≤ s.stackDepth) := by omega
    rw [he]; exact dif_neg hnot

theorem State.pushReturn_withSt : (s.withSt st).pushReturn = s.pushReturn.map (·.withSt st) := by
  obtain ⟨h, he⟩ | ⟨h, he⟩ := s.pushReturn_cases
  · rw [he]; exact State.pushReturn_room (s := s.withSt st) h
  · rw [he]; exact State.pushReturn_full (s := s.withSt st) h

theorem State.drawKey_withSt : (s.withSt st).drawKey = s.drawKey.map fun (k, t) => (k, t.withSt st) := by
  simp only [State.drawKey, State.withSt]
  split <;> rfl

theorem waitingStep_withSt (x : RegNo) : waitingStep x (s.withSt st) = (waitingStep x s).withSt st := by
  rw [waitingStep, waitingStep, State.drawKey_withSt]
  cases s.drawKey <;> rfl

end

/-- Both results are next states, and these differ in ST alone. -/
def DifferInSt (r r' : StepResult) : Prop := ∃ t u, r = .next t ∧ r' = .next u ∧ u = t.withSt u.st

namespace DifferInSt

theorem next {t u : State} (h : u = t.withSt u.st) : DifferInSt (.next t) (.next u) :=
  ⟨t, u, rfl, rfl, h⟩

variable (s : State) (st : Byte)

/-- Handlers that end alike. -/
theorem complete_map (st' : Byte) (r : Except HaltCause State) :
    DifferInSt (complete s r) (complete (s.withSt st) (r.map (·.withSt st'))) := by
  cases r with
  | ok t => exact next rfl
  | error c => exact next rfl

/-- Handlers behind the same check. -/
theorem complete_guarded (check : Option HaltCause) {body body' : State} (h : body' = body.withSt body'.st) :
    DifferInSt (complete s (guarded check body)) (complete (s.withSt st) (guarded check body')) := by
  cases check with
  | none => exact next h
  | some c => exact next rfl

/-- Skips on the same condition. -/
theorem complete_skipIf (c : Bool) :
    DifferInSt (complete s (.ok (s.begin.skipIf c))) (complete (s.withSt st) (.ok ((s.withSt st).begin.skipIf c))) := by
  cases c with
  | false => exact next rfl
  | true => exact next rfl

theorem execRet : DifferInSt (execRet s) (execRet (s.withSt st)) := by
  have h : (s.withSt st).begin.popReturn = s.begin.popReturn.map (·.withSt (countDown st)) :=
    State.popReturn_withSt s.begin (countDown st)
  rw [Machine.execRet, Machine.execRet, h]
  exact complete_map s st _ _

theorem execCall (nnn : BitVec 12) : DifferInSt (execCall nnn s) (execCall nnn (s.withSt st)) := by
  have h : (s.withSt st).begin.pushReturn = s.begin.pushReturn.map (·.withSt (countDown st)) :=
    State.pushReturn_withSt s.begin (countDown st)
  rw [Machine.execCall, Machine.execCall, h]
  cases s.begin.pushReturn with
  | ok t => exact next rfl
  | error c => exact next rfl

theorem execLdVxK (x : RegNo) : DifferInSt (execLdVxK x s) (execLdVxK x (s.withSt st)) := by
  have h : (s.withSt st).begin.drawKey = s.begin.drawKey.map fun (k, t) => (k, t.withSt (countDown st)) :=
    State.drawKey_withSt s.begin (countDown st)
  rw [Machine.execLdVxK, Machine.execLdVxK, h]
  cases s.begin.drawKey with
  | none => exact next rfl
  | some p => exact next rfl

/-- No instruction reads ST. Most make the two states outright; a skip, a pop, a push, a range check and a key draw decide
alike at both. -/
theorem exec (i : Instr) : DifferInSt (exec i s) (exec i (s.withSt st)) := by
  cases i with
  | seImm | sneImm | seReg | sneReg | skp | sknp => exact complete_skipIf s st _
  | drw | ldB | ldMemVx | ldVxMem => exact complete_guarded s st _ rfl
  | ret => exact execRet s st
  | call nnn => exact execCall s st nnn
  | ldVxK x => exact execLdVxK s st x
  | _ => exact next rfl

theorem fetchAndExecute : DifferInSt (fetchAndExecute s) (fetchAndExecute (s.withSt st)) := by
  have h : (s.withSt st).fetch = s.fetch := rfl
  rw [Machine.fetchAndExecute, Machine.fetchAndExecute, h]
  cases s.fetch with
  | error c => exact next rfl
  | ok op =>
    show DifferInSt (executeWord op s) (executeWord op (s.withSt st))
    rw [executeWord, executeWord]
    cases decode op with
    | error why => exact next rfl
    | ok i => exact exec s st i

/-- No step reads ST: whether the block is halted or waits, and what it fetches, does not depend on it. -/
theorem engineCycle : DifferInSt (engineCycle s) (engineCycle (s.withSt st)) := by
  have hhalt : (s.withSt st).halt = s.halt := rfl
  have hwait : (s.withSt st).wait = s.wait := rfl
  rw [Machine.engineCycle, Machine.engineCycle, hhalt, hwait]
  cases s.halt with
  | some c => exact next rfl
  | none =>
    cases s.wait with
    | some x => exact next (waitingStep_withSt s st x ▸ rfl)
    | none => exact fetchAndExecute s st

end DifferInSt

/-- Settles O20: the branches of a step, and in them every instruction, go alike at both states. -/
theorem nothingReadsTheSoundTimer : Obligations.NothingReadsTheSoundTimer := DifferInSt.engineCycle

end Sys2Proof.Machine
end

section
/-! PROOFS. Memory: the fetch reads it big-endian, a canonical list is determined by what it reads as, a data access past
its end is fatal, and a store is seen by the next fetch (spec/20_memory.md R50 to R62). -/

namespace Sys2Proof.Machine

/-! ## The fetch -/

/-- `wordOfBytes` in naturals: the first byte is the high one (R52). -/
theorem wordOfBytes_toNat (hi lo : Byte) : (wordOfBytes hi lo).toNat = 256 * hi.toNat + lo.toNat := by
  rw [wordOfBytes, BitVec.toNat_append, ← Nat.shiftLeft_add_eq_or_of_lt lo.isLt, Nat.shiftLeft_eq]
  omega

/-- A fetch at address `a` whose two bytes are in memory. -/
theorem State.fetch_of_pc {s : State} {a : Nat} (hpc : s.pc.toNat = a) (h : a + 2 ≤ Config.memSize) :
    s.fetch = .ok (s.mem.readWord a) := by
  subst hpc
  exact State.fetch_eq_ok.2 ⟨h, rfl⟩

/-- Settles O12. -/
theorem fetchIsBigEndian : Obligations.FetchIsBigEndian := fun s hpc =>
  ⟨s.mem.readWord s.pc.toNat, State.fetch_of_pc rfl (Nat.succ_le_succ hpc), wordOfBytes_toNat _ _⟩

/-! ## Canonical memories -/

/-- A listed entry is what its address reads as. -/
theorem Memory.read_of_mem {m : Memory} (hm : m.Pairwise (fun c d => c.1 < d.1)) {c : Host.Cell} (hc : c ∈ m) :
    m.read c.1 = c.2 := by
  induction hm with
  | nil => cases hc
  | cons hlt _ ih =>
    rcases List.mem_cons.1 hc with rfl | hc
    · exact if_pos rfl
    · exact (if_neg (Nat.ne_of_lt (hlt c hc))).trans (ih hc)

/-- An address that does not read as blank is listed with the byte it reads as. -/
theorem Memory.mem_of_read_ne_blank {m : Memory} {a : Nat} (h : m.read a ≠ Memory.blank a) : (a, m.read a) ∈ m := by
  induction m with
  | nil => exact absurd rfl h
  | cons c m ih =>
    obtain ⟨k, b⟩ := c
    rw [Memory.read] at h ⊢
    split at h
    next hk => simp [hk]
    next hk => simpa [hk] using .inr (ih h)

/-- The entries of a canonical memory are the bytes that do not read as blank. -/
theorem Memory.mem_iff_read {m : Memory} (hm : m.wf) (c : Host.Cell) :
    c ∈ m ↔ m.read c.1 = c.2 ∧ c.2 ≠ Memory.blank c.1 := by
  obtain ⟨hsorted, hentries⟩ := hm
  constructor
  · exact fun hc => ⟨Memory.read_of_mem hsorted hc, (hentries c hc).2⟩
  · rintro ⟨hread, hne⟩
    have hmem := Memory.mem_of_read_ne_blank (hread ▸ hne : m.read c.1 ≠ Memory.blank c.1)
    rwa [hread] at hmem

/-- Settles O21: the two lists have the same entries, since reads determine these, and both are strictly ordered. -/
theorem canonicalMemoriesThatReadAlikeAreEqual : Obligations.CanonicalMemoriesThatReadAlikeAreEqual := by
  intro m m' hm hm' hread
  have hentries : ∀ c, c ∈ m ↔ c ∈ m' := fun c => by
    rw [Memory.mem_iff_read hm, Memory.mem_iff_read hm', hread]
  have : Std.Irrefl fun c d : Host.Cell => c.1 < d.1 := ⟨fun c => Nat.lt_irrefl c.1⟩
  have : Std.Antisymm fun c d : Host.Cell => c.1 < d.1 := ⟨fun _ _ h h' => absurd h' (Nat.lt_asymm h)⟩
  exact hm.1.eq_of_mem_iff hm'.1 hentries

/-! ## Guarded accesses -/

/-- An access inside memory completes with the handler's state. -/
theorem complete_guarded_of_le {s body : State} {kind : AccessKind} {base count : Nat}
    (h : base + count ≤ Config.memSize) :
    complete s (guarded (checkRange kind base count) body) = .next body := by
  rw [checkRange_eq_none.2 (.inr h), guarded_none, complete_ok]

/-- An access past the end of memory is fatal, whatever the handler would have done (R53, R56). -/
theorem complete_guarded_of_lt {s body : State} {kind : AccessKind} {base count : Nat} (hcount : 0 < count)
    (h : Config.memSize < base + count) :
    complete s (guarded (checkRange kind base count) body) =
      .next (takeFatal (.addressError kind (max base Config.memSize)) s) := by
  rw [checkRange_eq_some.2 ⟨⟨hcount, h⟩, rfl⟩, guarded_some, complete_error]

/-- Settles O23: each of the four instructions is a handler behind its range check. -/
theorem dataAccessPastTheEndIsFatal : Obligations.DataAccessPastTheEndIsFatal := by
  intro x y n s raised
  refine ⟨fun h => ?bcd, fun h => ?store, fun h => ?load, fun hn h => ?draw⟩
  case bcd => exact complete_guarded_of_lt (by decide) (Nat.succ_lt_succ h)
  case store => exact complete_guarded_of_lt x.val.succ_pos (Nat.succ_lt_succ h)
  case load => exact complete_guarded_of_lt x.val.succ_pos (Nat.succ_lt_succ h)
  case draw =>
    have hend : Config.memSize < s.dataAddress + n := by
      simp only [Config.memSize, State.dataAddress]
      omega
    exact complete_guarded_of_lt hn hend

/-! ## A store and the next fetch -/

@[simp] theorem State.length_readBlock (s : State) (x : RegNo) : (s.readBlock x).length = x.val + 1 := by
  simp [State.readBlock]

/-- The bytes of `Fx55`, in order, are V0 to Vx (R155). -/
theorem State.getD_readBlock (s : State) {x j : RegNo} (h : j ≤ x) : (s.readBlock x).getD j.val 0 = s.readV j := by
  have hlen : j.val < (s.readBlock x).length := by rw [State.length_readBlock]; exact Nat.lt_succ_of_le h
  rw [List.getD_eq_getElem _ _ hlen]
  simp [State.readBlock, State.readV]

/-- After `Fx55`'s bytes were written from `a` up, the byte at `a + j` is Vj. -/
theorem Memory.read_writeBytes_readBlock {m : Memory} (hm : m.Pairwise (fun c d => c.1 < d.1)) (s : State) (a : Nat)
    {x j : RegNo} (h : j ≤ x) : (m.writeBytes a (s.readBlock x)).read (a + j.val) = s.readV j := by
  have hin : a ≤ a + j.val ∧ a + j.val < a + (s.readBlock x).length := by
    rw [State.length_readBlock]
    have : j.val ≤ x.val := h
    omega
  rw [Memory.read_writeBytes hm, if_pos hin, Nat.add_sub_cancel_left, State.getD_readBlock s h]

/-- `Fx55` inside memory completes, with V0 to Vx stored from I up (R155). -/
theorem exec_ldMemVx_of_le {x : RegNo} {s : State} (h : s.dataAddress + (x.val + 1) ≤ Config.memSize) :
    exec (.ldMemVx x) s = .next { s.begin with mem := s.mem.writeBytes s.dataAddress (s.readBlock x) } :=
  complete_guarded_of_le h

/-- Settles O22: the fetch at I = A + 2 reads the two first bytes of the block just stored, V0 and V1. -/
theorem storeIsSeenByTheNextFetch : Obligations.StoreIsSeenByTheNextFetch := by
  intro x s hm hpc hi hx hend
  have hbase : (s.pc + 2).toNat = s.dataAddress := by rw [State.dataAddress, hi]
  have hfetch : s.dataAddress + 2 ≤ Config.memSize := by
    simp only [Config.memSize, State.dataAddress]
    omega
  have h0 := Memory.read_writeBytes_readBlock hm.1 s s.dataAddress (Fin.zero_le x)
  have h1 := Memory.read_writeBytes_readBlock hm.1 s s.dataAddress (j := 1) hx
  refine ⟨_, exec_ldMemVx_of_le (Nat.succ_le_succ hend), ?_⟩
  exact (State.fetch_of_pc hbase hfetch).trans (congrArg Except.ok (congrArg₂ wordOfBytes h0 h1))

end Sys2Proof.Machine
end

section
/-! PROOFS. Decoder, encoder and opcode map agree (spec/30_encoding.md R71 to R80): the fields of a word make it up, the
decoder inverts the encoder, and the encoder the decoder; the rows of R75 do not overlap, and the decoder follows them. -/

namespace Sys2Proof

/-! ## A word and its fields (R71, R72) -/

section

variable {op : Word} {t : BitVec 4}

theorem encodeNNN_fields (ht : (Field.top op).toNat = t.toNat) : encodeNNN t (Field.nnn op) = op := by
  apply BitVec.eq_of_toNat_eq
  rw [Field.top_toNat] at ht
  rw [encodeNNN_toNat, Field.nnn_toNat]
  omega

theorem encodeXKK_fields (ht : (Field.top op).toNat = t.toNat) : encodeXKK t (Field.x op) (Field.kk op) = op := by
  apply BitVec.eq_of_toNat_eq
  rw [Field.top_toNat] at ht
  rw [encodeXKK_toNat, Field.x_val, Field.kk_toNat]
  omega

theorem encodeXYN_fields (ht : (Field.top op).toNat = t.toNat) :
    encodeXYN t (Field.x op) (Field.y op) (Field.n op) = op := by
  apply BitVec.eq_of_toNat_eq
  rw [Field.top_toNat] at ht
  rw [encodeXYN_toNat, Field.x_val, Field.y_val, Field.n_toNat]
  omega

end

/-! ## Decoding the word of an instruction -/

/-- The top nibble of the word leads to its family, the sub-opcode to the instruction there; each operand is read back from
the field it was written to. A count `n` above 15 would not be, hence `wf`. -/
theorem decode_encode {i : Instr} (hi : i.wf = true) : decode (encode i) = .ok i := by
  cases i with
  | cls | ret => rfl
  | jp | call | ldI | jpV0 | seImm | sneImm | ldImm | addImm | rnd | seReg | sneReg => simp [encode, decode]
  | skp | sknp => simp [encode, decode, decodeFamilyE]
  | ldVxDt | ldVxK | ldDtVx | ldStVx | addI | ldF | ldB | ldMemVx | ldVxMem => simp [encode, decode, decodeFamilyF]
  | ldReg | orReg | andReg | xorReg | addReg | sub | shr | subn | shl => simp [encode, decode, decodeFamily8]
  | drw x y n =>
    have hn : n % 16 = n := Nat.mod_eq_of_lt (Nat.lt_succ_of_le (of_decide_eq_true hi))
    simp [encode, decode, hn]

/-- Settles O1, by the family of the instruction. -/
theorem decodeOfEncodeIsTheInstruction : Obligations.DecodeOfEncodeIsTheInstruction := fun _ => decode_encode

/-! ## The word of a decoded instruction -/

/-- `op` is the word of `i`, whose operands fit their fields. -/
def IsWordOf (op : Word) (i : Instr) : Prop := i.wf = true ∧ encode i = op

theorem isWordOf_of_decodeFamily0 {op : Word} {i : Instr} (h : decodeFamily0 op = .ok i) : IsWordOf op i := by
  unfold decodeFamily0 at h
  split at h
  next hop => cases h; exact ⟨rfl, hop.symm⟩
  next =>
    split at h
    next hop => cases h; exact ⟨rfl, hop.symm⟩
    next => cases h

theorem isWordOf_of_decodeFamily8 {x y : RegNo} {n : Nat} {i : Instr} (h : decodeFamily8 x y n = .ok i) :
    IsWordOf (encodeXYN 0x8 x y (BitVec.ofNat 4 n)) i := by
  unfold decodeFamily8 at h
  split at h <;> cases h <;> exact ⟨rfl, rfl⟩

theorem isWordOf_of_decodeFamilyE {x : RegNo} {kk : Nat} {i : Instr} (h : decodeFamilyE x kk = .ok i) :
    IsWordOf (encodeXKK 0xE x (BitVec.ofNat 8 kk)) i := by
  unfold decodeFamilyE at h
  split at h <;> cases h <;> exact ⟨rfl, rfl⟩

theorem isWordOf_of_decodeFamilyF {x : RegNo} {kk : Nat} {i : Instr} (h : decodeFamilyF x kk = .ok i) :
    IsWordOf (encodeXKK 0xF x (BitVec.ofNat 8 kk)) i := by
  unfold decodeFamilyF at h
  split at h <;> cases h <;> exact ⟨rfl, rfl⟩

/-- Each branch of the decoder, by the format of its words; the last one is left with top nibble F. -/
theorem isWordOf_of_decode {op : Word} {i : Instr} (h : decode op = .ok i) : IsWordOf op i := by
  have hlt := (Field.top op).isLt
  unfold decode at h
  split at h
  case h_1 => exact isWordOf_of_decodeFamily0 h
  case h_2 htop | h_3 htop | h_11 htop | h_12 htop => cases h; exact ⟨rfl, encodeNNN_fields htop⟩
  case h_4 htop | h_5 htop | h_7 htop | h_8 htop | h_13 htop => cases h; exact ⟨rfl, encodeXKK_fields htop⟩
  case h_6 htop | h_10 htop =>
    split at h
    next hn => cases h; exact ⟨rfl, by rw [encode, ← hn, encodeXYN_fields htop]⟩
    next => cases h
  case h_9 htop => simpa [encodeXYN_fields (t := 0x8#4) htop] using isWordOf_of_decodeFamily8 h
  case h_14 htop =>
    cases h
    refine ⟨decide_eq_true (Nat.le_of_lt_succ (Field.n op).isLt), ?_⟩
    rw [encode, BitVec.ofNat_toNat, BitVec.setWidth_eq, encodeXYN_fields htop]
  case h_15 htop => simpa [encodeXKK_fields (t := 0xE#4) htop] using isWordOf_of_decodeFamilyE h
  case h_16 =>
    have htop : (Field.top op).toNat = 0xF := by
      simp only [imp_false] at *
      omega
    simpa [encodeXKK_fields (t := 0xF#4) htop] using isWordOf_of_decodeFamilyF h

/-- Settles O2, by the branch of the decoder. -/
theorem encodeOfDecodeIsTheWord : Obligations.EncodeOfDecodeIsTheWord := fun _ _ => isWordOf_of_decode

/-! ## The opcode map (R75) -/

open Laws.EncodeFitsRow in
/-- The per-instruction laws of `EncodeFitsRow`, for any instruction. -/
theorem encodeFitsRow : ∀ i : Instr, Statement i
  | .cls => cls | .ret => ret | .jp _ => jp _ | .call _ => call _ | .seImm _ _ => seImm _ _
  | .sneImm _ _ => sneImm _ _ | .seReg _ _ => seReg _ _ | .ldImm _ _ => ldImm _ _ | .addImm _ _ => addImm _ _
  | .ldReg _ _ => ldReg _ _ | .orReg _ _ => orReg _ _ | .andReg _ _ => andReg _ _ | .xorReg _ _ => xorReg _ _
  | .addReg _ _ => addReg _ _ | .sub _ _ => sub _ _ | .shr _ _ => shr _ _ | .subn _ _ => subn _ _
  | .shl _ _ => shl _ _ | .sneReg _ _ => sneReg _ _ | .ldI _ => ldI _ | .jpV0 _ => jpV0 _ | .rnd _ _ => rnd _ _
  | .drw _ _ _ => drw _ _ _ | .skp _ => skp _ | .sknp _ => sknp _ | .ldVxDt _ => ldVxDt _ | .ldVxK _ => ldVxK _
  | .ldDtVx _ => ldDtVx _ | .ldStVx _ => ldStVx _ | .addI _ => addI _ | .ldF _ => ldF _ | .ldB _ => ldB _
  | .ldMemVx _ => ldMemVx _ | .ldVxMem _ => ldVxMem _

/-- Two rows agree on the bits both fix only when they are the same row. -/
theorem opcodeTable_no_overlap :
    ∀ r ∈ opcodeTable, ∀ r' ∈ opcodeTable, r.pattern &&& r'.mask = r'.pattern &&& r.mask → r = r' := by
  decide

/-- No word is in two rows. -/
theorem row_unique {op : Word} {r r' : OpRow} (hr : r ∈ opcodeTable) (hr' : r' ∈ opcodeTable)
    (h : op &&& r.mask = r.pattern) (h' : op &&& r'.mask = r'.pattern) : r = r' := by
  refine opcodeTable_no_overlap r hr r' hr' ?_
  rw [← h, ← h', BitVec.and_assoc, BitVec.and_assoc, BitVec.and_comm r.mask]

/-- Every row is the row of an instruction: the one its pattern decodes to. -/
theorem exists_row_eq {r : OpRow} (hr : r ∈ opcodeTable) : ∃ i : Instr, i.row = r := by
  have hpattern : ∀ r ∈ opcodeTable, (decode r.pattern).toOption.map Instr.row = some r := by decide
  obtain ⟨i, -, hi⟩ := Option.map_eq_some_iff.1 (hpattern r hr)
  exact ⟨i, hi⟩

/-- A field that a mask keeps whole is that of the masked word. -/
theorem extractLsb'_eq_of_and {op m p : Word} {start len : Nat} (h : op &&& m = p)
    (hm : m.extractLsb' start len = BitVec.allOnes len) : op.extractLsb' start len = p.extractLsb' start len := by
  rw [← h, BitVec.extractLsb'_and, hm, BitVec.and_allOnes]

/-- A word in the row of `j` decodes to an instruction of that row: the row's mask keeps the fields by which the decoder
chooses. -/
theorem decode_of_row {op : Word} {j : Instr} (h : op &&& j.row.mask = j.row.pattern) :
    ∃ i, decode op = .ok i ∧ i.row = j.row := by
  cases j with
  | cls | ret =>
    have hop : op = _ := BitVec.and_allOnes.symm.trans h
    exact ⟨_, hop ▸ rfl, rfl⟩
  | jp | call | seImm | sneImm | ldImm | addImm | ldI | jpV0 | rnd | drw =>
    dsimp only [Instr.row] at h
    have htop : Field.top op = _ := extractLsb'_eq_of_and h rfl
    rw [decode, htop]
    exact ⟨_, rfl, rfl⟩
  | seReg | ldReg | orReg | andReg | xorReg | addReg | sub | shr | subn | shl | sneReg =>
    dsimp only [Instr.row] at h
    have htop : Field.top op = _ := extractLsb'_eq_of_and h rfl
    have hn : Field.n op = _ := extractLsb'_eq_of_and h rfl
    rw [decode, htop, hn]
    exact ⟨_, rfl, rfl⟩
  | skp | sknp | ldVxDt | ldVxK | ldDtVx | ldStVx | addI | ldF | ldB | ldMemVx | ldVxMem =>
    dsimp only [Instr.row] at h
    have htop : Field.top op = _ := extractLsb'_eq_of_and h rfl
    have hkk : Field.kk op = _ := extractLsb'_eq_of_and h rfl
    rw [decode, htop, hkk]
    exact ⟨_, rfl, rfl⟩

/-- Settles O3: a legal word is the word of its instruction, which is in that instruction's row and so in no other. -/
theorem decodeFollowsTheOpcodeMap : Obligations.DecodeFollowsTheOpcodeMap := by
  refine ⟨fun op i h => ?_, fun op r hr h => ?_⟩
  · obtain ⟨-, rfl⟩ := isWordOf_of_decode h
    obtain ⟨hrow, hselects⟩ := encodeFitsRow i
    have hin : encode i &&& i.row.mask = i.row.pattern := beq_iff_eq.1 hselects
    exact ⟨hrow, fun r hr => ⟨fun h => row_unique hr hrow h hin, fun h => h ▸ hin⟩⟩
  · obtain ⟨j, rfl⟩ := exists_row_eq hr
    exact decode_of_row h

/-- Settles O4, word by word. -/
theorem wordsWrittenOutDecode : Obligations.WordsWrittenOutDecode := by
  unfold Obligations.WordsWrittenOutDecode
  decide

end Sys2Proof
end

section
/-! PROOFS. The engine cycle (spec/40_engine.md): which branch a step takes, that it always returns, what its status tells,
and when the timers tick. -/

namespace Sys2Proof.Machine

/-! ## The branch a step takes (R91) -/

theorem step_of_halt {s : State} {c : HaltCause} (hh : s.halt = some c) : step s = .next (haltedStep c s) := by
  simp only [step, engineCycle, hh]

theorem step_of_wait {s : State} {x : RegNo} (hh : s.halt = none) (hw : s.wait = some x) :
    step s = .next (waitingStep x s) := by
  simp only [step, engineCycle, hh, hw]

theorem step_of_fetch_error {s : State} {c : HaltCause} (hh : s.halt = none) (hw : s.wait = none)
    (hf : s.fetch = .error c) : step s = .next (takeFatal c s) := by
  simp only [step, engineCycle, hh, hw, fetchAndExecute, hf]

theorem step_of_decode_error {s : State} {op : Word} {why : Illegal} (hh : s.halt = none) (hw : s.wait = none)
    (hf : s.fetch = .ok op) (hd : decode op = .error why) : step s = .next (takeDecodeError op s) := by
  simp only [step, engineCycle, hh, hw, fetchAndExecute, hf, executeWord, hd]

theorem step_of_decode_ok {s : State} {op : Word} {i : Instr} (hh : s.halt = none) (hw : s.wait = none)
    (hf : s.fetch = .ok op) (hd : decode op = .ok i) : step s = exec i s := by
  simp only [step, engineCycle, hh, hw, fetchAndExecute, hf, executeWord, hd]

/-- Settles O11: inside memory the fetch answers the two bytes at PC. -/
theorem stepRunsTheDecodedInstruction : Obligations.StepRunsTheDecodedInstruction := fun _ _ hh hw hpc hd =>
  step_of_decode_ok hh hw (State.fetch_of_pc rfl (Nat.succ_le_succ hpc)) hd

/-- Settles O17: inside memory the fetch answers the two bytes at PC. -/
theorem decodeErrorAdvancesPcOnly : Obligations.DecodeErrorAdvancesPcOnly := fun _ _ hh hw hpc hd =>
  step_of_decode_error hh hw (State.fetch_of_pc rfl (Nat.succ_le_succ hpc)) hd

/-- Settles O16. The lowest address outside memory, of the two that a fetch reads, is PC or else PC + 1. -/
theorem haltedAndFetchFaultStepsAreFatal : Obligations.HaltedAndFetchFaultStepsAreFatal := by
  refine ⟨fun s c hh => step_of_halt hh, ?_⟩
  intro s hh hw hpc addr
  have haddr : addr = max s.pc.toNat Config.memSize := by
    simp only [addr, Config.memSize]
    split <;> omega
  exact step_of_fetch_error hh hw (State.fetch_eq_error.2 ⟨Nat.succ_lt_succ hpc, congrArg _ haddr⟩)

/-! ## Every step returns (R104) -/

theorem complete_returns (s : State) (r : Except HaltCause State) : ∃ t, complete s r = .next t := by
  cases r with
  | ok t => exact ⟨t, rfl⟩
  | error c => exact ⟨takeFatal c s, rfl⟩

/-- Every instruction answers a next state: the six with a fatal outcome end in `complete`, `Fx0A` does with a key and
without, and the rest answer theirs outright. -/
theorem exec_returns (i : Instr) (s : State) : ∃ t, exec i s = .next t := by
  cases i with
  | ret | call | drw | ldB | ldMemVx | ldVxMem => exact complete_returns s _
  | ldVxK x =>
    rw [exec, execLdVxK]
    cases s.begin.drawKey with
    | some p => exact ⟨_, rfl⟩
    | none => exact ⟨_, rfl⟩
  | _ => exact ⟨_, rfl⟩

/-- Settles O13, branch by branch of the engine cycle. -/
theorem everyStepReturns : Obligations.EveryStepReturns := by
  intro s
  cases hh : s.halt with
  | some c => exact ⟨_, step_of_halt hh⟩
  | none =>
    cases hw : s.wait with
    | some x => exact ⟨_, step_of_wait hh hw⟩
    | none =>
      cases hf : s.fetch with
      | error c => exact ⟨_, step_of_fetch_error hh hw hf⟩
      | ok op =>
        cases hd : decode op with
        | error why => exact ⟨_, step_of_decode_error hh hw hf hd⟩
        | ok i =>
          rw [step_of_decode_ok hh hw hf hd]
          exact exec_returns i s

/-! ## The outcome of an instruction -/

namespace ExecCase

variable {i : Instr} {s t : State}

/-- The three ways an instruction ends (R99): with an error taken, with status Ok, or, for an `Fx0A` without a key,
waiting. -/
theorem outcome (h : ExecCase s i t) :
    (∃ c, MayFail i ∧ t = takeFatal c s) ∨ (t.status = .ok ∧ t.halt = s.halt ∧ t.wait = s.wait) ∨
      ∃ x, i = .ldVxK x ∧ s.keys = 0 ∧ t = { s.begin with pc := s.pc, wait := some x, status := .waiting } := by
  cases h with
  | fatal c hi => exact .inl ⟨c, hi, rfl⟩
  | keyAwaited x hk => exact .inr (.inr ⟨x, rfl, pressedKeys_eq_nil.1 hk, rfl⟩)
  | _ => exact .inr (.inl ⟨rfl, rfl, rfl⟩)

/-! What holds of an instruction that ends without an error, since it has none or since the block did not halt. -/
section

variable (h : ExecCase s i t) (hend : ¬MayFail i ∨ t.halt = none)
include h hend

theorem halt_eq_of_no_error : t.halt = s.halt := by
  cases h with
  | fatal c hi => exact hend.elim (absurd hi) nofun
  | _ => rfl

theorem dt_ticked_of_no_error (hi : ∀ x, i ≠ .ldDtVx x) : t.dt.toNat = s.dt.toNat - 1 := by
  cases h with
  | fatal c hf => exact hend.elim (absurd hf) nofun
  | ldDtVx x => exact absurd rfl (hi x)
  | _ => exact countDown_toNat s.dt

theorem st_ticked_of_no_error (hi : ∀ x, i ≠ .ldStVx x) : t.st.toNat = s.st.toNat - 1 := by
  cases h with
  | fatal c hf => exact hend.elim (absurd hf) nofun
  | ldStVx x => exact absurd rfl (hi x)
  | _ => exact countDown_toNat s.st

theorem ticked (hdt : ∀ x, i ≠ .ldDtVx x) (hst : ∀ x, i ≠ .ldStVx x) : Ticked s t :=
  ⟨h.dt_ticked_of_no_error hend hdt, h.st_ticked_of_no_error hend hst⟩

theorem sameControl (hkey : ∀ x, i ≠ .ldVxK x) : SameControl s t :=
  ⟨h.keys_eq, h.wait_eq hkey, h.halt_eq_of_no_error hend, h.decodeErrorSeen_eq⟩

end

end ExecCase

/-! ## The status and the timers of a step -/

/-- Settles O14, by the case of the step and, where an instruction runs, by how that ends. -/
theorem statusOfAStepTellsItsEffect : Obligations.StatusOfAStepTellsItsEffect := by
  intro s t h
  cases step_cases h with
  | halted c hh =>
    show haltedStep c s = { s with halt := some c, status := .fatal c, intents := [] }
    rw [← hh, haltedStep]
  | waiting x hh hw =>
    have hwait : s.wait ≠ none := by simp [hw]
    obtain ⟨k, hk, he⟩ | ⟨hk, he⟩ := waitingStep_cases x s
    · have hkeys : s.keys ≠ 0 := fun h0 => by simp [h0] at hk
      rw [he]
      exact ⟨hh, hh, rfl, fun hn => absurd hn hwait, fun _ => hkeys⟩
    · rw [he]
      exact ⟨hh, pressedKeys_eq_nil.1 hk, fun hn => absurd hn hwait, fun _ => rfl⟩
  | fetchFault c => rfl
  | illegal op why hh hw hf hd => exact ⟨rfl, hf, ⟨why, hd⟩, rfl⟩
  | ran op i t hh hw hf hd he =>
    obtain ⟨c, -, rfl⟩ | ⟨hstatus, hhalt, hwait⟩ | ⟨x, rfl, hkeys, rfl⟩ := (exec_cases he).outcome
    · rfl
    · rw [hstatus]
      exact ⟨hh, hhalt.trans hh, hwait.trans hw, fun _ => ⟨op, i, hf, hd, he⟩, fun hn => absurd hw hn⟩
    · exact ⟨hh, hkeys, fun _ => ⟨op, x, hf, hd, s.begin_completed.2, rfl⟩, fun hn => absurd hw hn⟩

/-- A waiting step does not tick (R187). -/
theorem waitingStep_timers (x : RegNo) (s : State) : (waitingStep x s).dt = s.dt ∧ (waitingStep x s).st = s.st := by
  obtain ⟨k, -, he⟩ | ⟨-, he⟩ := waitingStep_cases x s
  · rw [he]; exact ⟨rfl, rfl⟩
  · rw [he]; exact ⟨rfl, rfl⟩

/-- Settles O15: an instruction that ends without an error ticks, and no other case of a step does. -/
theorem timersTickInLegalStepsOnly : Obligations.TimersTickInLegalStepsOnly := by
  intro s t h
  cases step_cases h with
  | halted c hh => exact ⟨fun _ _ hn => (nomatch hh.symm.trans hn), fun _ => ⟨rfl, rfl⟩⟩
  | waiting x hh hw => exact ⟨fun _ _ _ hn => (nomatch hw.symm.trans hn), fun _ => waitingStep_timers x s⟩
  | fetchFault c hh hw hf => exact ⟨fun _ _ _ _ hn => (nomatch hf.symm.trans hn), fun _ => ⟨rfl, rfl⟩⟩
  | illegal op why hh hw hf hd =>
    refine ⟨fun op' i' _ _ hf' hd' => ?_, fun _ => ⟨rfl, rfl⟩⟩
    cases hf.symm.trans hf'
    cases hd.symm.trans hd'
  | ran op i t hh hw hf hd he =>
    have hc := exec_cases he
    refine ⟨fun op' i' _ _ hf' hd' hend => ?ticks, fun hcase => ?still⟩
    case ticks =>
      cases hf.symm.trans hf'
      cases hd.symm.trans hd'
      exact ⟨hc.dt_ticked_of_no_error (.inr hend), hc.st_ticked_of_no_error (.inr hend)⟩
    case still =>
      have hhalt : t.halt ≠ none := by
        obtain hn | hn | ⟨c, hf'⟩ | ⟨op', why, hf', hd'⟩ | hn := hcase
        · exact absurd hh hn
        · exact absurd hw hn
        · cases hf.symm.trans hf'
        · cases hf.symm.trans hf'
          cases hd.symm.trans hd'
        · exact hn
      obtain heq | ⟨c, rfl⟩ := hc.halt_or_fatal
      · exact absurd (heq.trans hh) hhalt
      · exact ⟨rfl, rfl⟩

end Sys2Proof.Machine
end

section
/-! PROOFS. The frames (spec/40_engine.md R102): what each family of instructions leaves unchanged (decision D10). -/

namespace Sys2Proof.Machine

/-! ## The parts of a frame -/

namespace ExecCase

variable {i : Instr} {s t : State}

theorem sameMemory (h : ExecCase s i t) (hbcd : ∀ x, i ≠ .ldB x) (hblock : ∀ x, i ≠ .ldMemVx x) : SameMemory s t :=
  fun _ => by rw [h.mem_eq hbcd hblock]

theorem sameCells (h : ExecCase s i t) (hcls : i ≠ .cls) (hdrw : ∀ x y n, i ≠ .drw x y n) : SameCells s t :=
  fun _ _ => by rw [(h.fb_eq_and_intents_eq_nil hcls hdrw).1]

theorem sameStack (h : ExecCase s i t) (hcall : ∀ nnn, i ≠ .call nnn) (hret : i ≠ .ret) : SameStack s t :=
  (h.stack_eq_and_sp_eq hcall hret).symm

theorem noDrawNoIntent (h : ExecCase s i t) (hcls : i ≠ .cls) (hdrw : ∀ x y n, i ≠ .drw x y n)
    (hrnd : ∀ x kk, i ≠ .rnd x kk) (hkey : ∀ x, i ≠ .ldVxK x) : NoDrawNoIntent s t :=
  ⟨h.draws_eq hrnd hkey, (h.fb_eq_and_intents_eq_nil hcls hdrw).2⟩

end ExecCase

/-! ## Jumps, skips, and the instructions whose result goes to registers -/

/-- The instructions that write, PC and the timers aside, at most general registers, from operands that are no draw and
no memory. -/
def writesRegistersOnly : Instr → Bool
  | .jp _ | .jpV0 _ => true
  | .seImm _ _ | .sneImm _ _ | .seReg _ _ | .sneReg _ _ | .skp _ | .sknp _ => true
  | .ldImm _ _ | .addImm _ _ | .ldReg _ _ | .orReg _ _ | .andReg _ _ | .xorReg _ _ | .ldVxDt _ => true
  | .addReg _ _ | .sub _ _ | .shr _ _ | .subn _ _ | .shl _ _ => true
  | _ => false

theorem not_mayFail_of_writesRegistersOnly {i : Instr} (hi : writesRegistersOnly i = true) : ¬MayFail i := by
  rintro (rfl | ⟨_, rfl⟩ | ⟨_, _, _, rfl⟩ | ⟨_, rfl⟩ | ⟨_, rfl⟩ | ⟨_, rfl⟩)
  all_goals cases hi

/-- The registers `regs` aside, only PC and the timers change, and the timers tick. -/
def OnlyRegistersChange (regs : List RegNo) (s t : State) : Prop :=
  SameRegsBut regs s t ∧ t.i = s.i ∧ SameStack s t ∧ SameMemory s t ∧ SameCells s t ∧ SameControl s t ∧
    NoDrawNoIntent s t ∧ Ticked s t

/-- Whatever registers and PC become, the rest of `s.begin` is that of `s`, ticked. -/
theorem onlyRegistersChange_begin {regs : List RegNo} {s : State} {v : Vector Byte Config.numV} {pc : Word}
    (hv : SameRegsBut regs s { s.begin with v := v, pc := pc }) :
    OnlyRegistersChange regs s { s.begin with v := v, pc := pc } :=
  ⟨hv, rfl, ⟨rfl, rfl⟩, fun _ => rfl, fun _ _ => rfl, ⟨rfl, rfl, rfl, rfl⟩, ⟨rfl, rfl⟩, s.begin_completed.2⟩

theorem ExecCase.onlyRegistersChange {i : Instr} {s t : State} (h : ExecCase s i t)
    (hi : writesRegistersOnly i = true) : OnlyRegistersChange (writtenRegs i) s t := by
  cases h with
  | fatal c hf => exact absurd hf (not_mayFail_of_writesRegistersOnly hi)
  | regs v hv => exact onlyRegistersChange_begin hv
  | skip a | jp nnn | jpV0 nnn => exact onlyRegistersChange_begin fun _ _ => rfl
  | _ => cases hi

/-- An instruction of the class that answers `t` changes the registers of its row in R35 only. -/
theorem onlyRegistersChange_of_exec {i : Instr} {s t : State} (hi : writesRegistersOnly i = true)
    (h : exec i s = .next t) : OnlyRegistersChange (writtenRegs i) s t :=
  (exec_cases h).onlyRegistersChange hi

/-- Settles O30: the eight write no register. -/
theorem jumpsAndSkipsChangeOnlyPc : Obligations.JumpsAndSkipsChangeOnlyPc := by
  rintro x y kk nnn s t (h | h | h | h | h | h | h | h)
  all_goals exact onlyRegistersChange_of_exec rfl h

/-- Settles O38: the seven write Vx. -/
theorem registerInstructionsChangeOnlyVx : Obligations.RegisterInstructionsChangeOnlyVx := by
  rintro x y kk s t (h | h | h | h | h | h | h)
  all_goals exact onlyRegistersChange_of_exec rfl h

/-- Settles O39: the five write Vx and VF. -/
theorem flagInstructionsChangeOnlyVxAndVF : Obligations.FlagInstructionsChangeOnlyVxAndVF := by
  rintro x y s t (h | h | h | h | h)
  all_goals exact onlyRegistersChange_of_exec rfl h

/-! ## Index, timers, stores, call and return -/

/-- Settles O42, each part of the frame by its lemma over the cases of an instruction. -/
theorem indexInstructionsChangeOnlyI : Obligations.IndexInstructionsChangeOnlyI := by
  rintro x nnn s t (h | h | h)
  all_goals
    have hc := exec_cases h
    exact ⟨hc.sameRegs, hc.sameStack nofun nofun, hc.sameMemory nofun nofun, hc.sameCells nofun nofun,
      hc.sameControl (.inl (by simp [MayFail])) nofun, hc.noDrawNoIntent nofun nofun nofun nofun,
      hc.ticked (.inl (by simp [MayFail])) nofun nofun⟩

/-- Settles O56, each part of the frame by its lemma over the cases of an instruction. -/
theorem timerWritesChangeOnlyTheirTimer : Obligations.TimerWritesChangeOnlyTheirTimer := by
  intro x s t
  refine ⟨fun h => (exec_cases h).st_ticked_of_no_error (.inl (by simp [MayFail])) nofun,
    fun h => (exec_cases h).dt_ticked_of_no_error (.inl (by simp [MayFail])) nofun, ?_⟩
  rintro (h | h)
  all_goals
    have hc := exec_cases h
    exact ⟨hc.sameRegs, hc.i_eq nofun nofun nofun, hc.sameStack nofun nofun, hc.sameMemory nofun nofun,
      hc.sameCells nofun nofun, hc.sameControl (.inl (by simp [MayFail])) nofun,
      hc.noDrawNoIntent nofun nofun nofun nofun⟩

/-- Bytes written from `a` up leave the addresses below and past them as they were. -/
theorem Memory.read_writeBytes_outside {m : Memory} (hm : m.wf) {bs : List Byte} {a a' : Nat}
    (h : a' < a ∨ a + bs.length ≤ a') : (m.writeBytes a bs).read a' = m.read a' := by
  rw [Memory.read_writeBytes hm.1, if_neg (by omega)]

/-- Settles O46: outside the bytes written by `Memory.read_writeBytes_outside`; elsewhere in the state by the cases of an
instruction. -/
theorem storesChangeOnlyTheirBytes : Obligations.StoresChangeOnlyTheirBytes := by
  intro x s t hm hend
  refine ⟨fun h a ha => ?bcd, fun h a ha => ?block, ?rest⟩
  case bcd =>
    cases exec_cases h with
    | fatal => cases hend
    | ldB => exact Memory.read_writeBytes_outside hm ha
    | _ => rfl
  case block =>
    cases exec_cases h with
    | fatal => cases hend
    | ldMemVx => exact Memory.read_writeBytes_outside hm (by rwa [State.length_readBlock])
    | _ => rfl
  case rest =>
    rintro (h | h)
    all_goals
      have hc := exec_cases h
      exact ⟨hc.sameRegs, hc.i_eq nofun nofun nofun, hc.sameStack nofun nofun, hc.sameCells nofun nofun,
        hc.sameControl (.inr hend) nofun, hc.noDrawNoIntent nofun nofun nofun nofun,
        hc.ticked (.inr hend) nofun nofun⟩

/-- Settles O31: a call sets the entry at the old SP, a return none. -/
theorem callAndReturnChangeOnlyPcAndStack : Obligations.CallAndReturnChangeOnlyPcAndStack := by
  intro nnn s t hend
  refine ⟨fun h j hj => ?call, fun h => ?ret, ?rest⟩
  case call =>
    cases exec_cases h with
    | call => exact List.getElem?_set_ne hj.symm
    | _ => rfl
  case ret => cases exec_cases h <;> rfl
  case rest =>
    rintro (h | h)
    all_goals
      have hc := exec_cases h
      exact ⟨hc.sameRegs, hc.i_eq nofun nofun nofun, hc.sameMemory nofun nofun, hc.sameCells nofun nofun,
        hc.sameControl (.inr hend) nofun, hc.noDrawNoIntent nofun nofun nofun nofun,
        hc.ticked (.inr hend) nofun nofun⟩

end Sys2Proof.Machine
end

section
/-! PROOFS. Control flow (spec/41_control_flow.md): where the jumps, the skips on a comparison, the call and the return
leave PC and the stack. -/

namespace Sys2Proof.Machine

/-! ## Jumps (R112, R119) -/

/-- 16 bits hold every `nnn`. -/
@[simp] theorem address_toNat (nnn : BitVec 12) : (address nnn).toNat = nnn.toNat :=
  BitVec.toNat_setWidth_of_le (by decide)

/-- 16 bits hold every `nnn + V0`, so the sum does not wrap. -/
theorem addressPlusV0_toNat (nnn : BitVec 12) (v0 : Byte) : (addressPlusV0 nnn v0).toNat = nnn.toNat + v0.toNat := by
  have hnnn := nnn.isLt
  have hv0 := v0.isLt
  rw [addressPlusV0, BitVec.toNat_ofNat, Nat.mod_eq_of_lt (by omega)]

/-- Settles O24: the target is `nnn` by `address_toNat`. -/
theorem jumpSetsPc : Obligations.JumpSetsPc := fun nnn s =>
  ⟨s.begin.jump (address nnn), rfl, address_toNat nnn, fun _ _ => rfl, s.begin_completed⟩

/-- Settles O27: the target is the sum by `addressPlusV0_toNat`, within the bound by `addressPlusV0_le`. -/
theorem jumpPlusV0AddsExactly : Obligations.JumpPlusV0AddsExactly := fun nnn s =>
  ⟨s.begin.jump (addressPlusV0 nnn (s.readV 0)), rfl, addressPlusV0_toNat nnn _, addressPlusV0_le nnn _,
    s.begin_completed⟩

/-! ## Skips on a comparison (R98, R115 to R118) -/

/-- A skip from A, after the advance to A + 2, stands at A + 4 or still at A + 2. -/
theorem State.pc_skipIf_begin (s : State) (c : Bool) :
    (s.begin.skipIf c).pc = if c then s.pc + 4 else s.pc + 2 := by
  cases c with
  | false => rfl
  | true => exact BitVec.add_assoc s.pc 2 2

theorem State.skipIf_begin_completed (s : State) (c : Bool) : Completed s (s.begin.skipIf c) := by
  cases c <;> exact s.begin_completed

/-- A skip on a test `c` that decides `p` goes to A + 4 exactly when `p` holds, writes no register and completes. -/
theorem exists_skip_of_iff (s : State) {c : Bool} {p : Prop} [Decidable p] (hc : c = true ↔ p) :
    ∃ t, complete s (.ok (s.begin.skipIf c)) = .next t ∧ t.pc = (if p then s.pc + 4 else s.pc + 2) ∧
      SameRegsBut [] s t ∧ Completed s t := by
  refine ⟨s.begin.skipIf c, rfl, ?pc, fun r _ => State.readV_skipIf s.begin c r, s.skipIf_begin_completed c⟩
  rw [State.pc_skipIf_begin, if_congr hc rfl rfl]

/-- Settles O25: each of the four is a skip on its comparison. -/
theorem comparisonsSkipOneInstruction : Obligations.ComparisonsSkipOneInstruction := fun _ _ _ s =>
  ⟨exists_skip_of_iff s beq_iff_eq, exists_skip_of_iff s bne_iff_ne, exists_skip_of_iff s beq_iff_eq,
    exists_skip_of_iff s bne_iff_ne⟩

/-! ## Call and return (R111, R113) -/

/-- With room on the stack, a call sets the entry at SP to A + 2. -/
theorem exec_call_of_lt (nnn : BitVec 12) {s : State} (h : s.sp < s.stackDepth) :
    exec (.call nnn) s = .next { s.begin with
      stack := s.stack.set s.sp (s.pc + 2), sp := s.sp + 1, pc := address nnn } := by
  rw [exec, execCall, State.pushReturn_room (s := s.begin) h]
  rfl

theorem exec_call_of_le (nnn : BitVec 12) {s : State} (h : s.stackDepth ≤ s.sp) :
    exec (.call nnn) s = .next (takeFatal .stackOverflow s) := by
  rw [exec, execCall, State.pushReturn_full (s := s.begin) h, Except.map, complete_error]

theorem exec_ret_of_pos {s : State} (h : 0 < s.sp) (hs : s.sp ≤ s.stackDepth) :
    exec .ret s = .next { s.begin with
      sp := s.sp - 1, pc := s.stack[s.sp - 1]'(Nat.lt_of_lt_of_le (Nat.sub_lt h Nat.one_pos) hs) } := by
  rw [exec, execRet, State.popReturn_some (s := s.begin) h hs]
  rfl

theorem exec_ret_of_eq_zero {s : State} (h : s.sp = 0) : exec .ret s = .next (takeFatal .stackUnderflow s) := by
  rw [exec, execRet, State.popReturn_empty (s := s.begin) h, complete_error]

/-- Settles O28, by `exec_call_of_lt` with room on the stack and `exec_call_of_le` without. -/
theorem callPushesTheAdvancedPc : Obligations.CallPushesTheAdvancedPc := fun nnn _ =>
  ⟨fun hroom => ⟨_, exec_call_of_lt nnn hroom, address_toNat nnn, rfl, List.getElem?_set_self hroom, fun _ _ => rfl,
      State.begin_completed _⟩,
    fun hfull => ⟨_, exec_call_of_le nnn hfull.ge, rfl⟩⟩

/-- Settles O29, by `exec_ret_of_pos` with an entry in use and `exec_ret_of_eq_zero` without. -/
theorem returnPopsIntoPc : Obligations.ReturnPopsIntoPc := fun _ =>
  ⟨fun hpos hdepth => ⟨_, exec_ret_of_pos hpos hdepth, List.getElem?_eq_getElem _, rfl, rfl, fun _ _ => rfl,
      State.begin_completed _⟩,
    fun hempty => ⟨_, exec_ret_of_eq_zero hempty, rfl⟩⟩

end Sys2Proof.Machine
end

section
/-! PROOFS. Arithmetic and logic (spec/42_alu.md): the registers after a result, the bytes and flags that the
instructions compute, and the random byte. -/

namespace Sys2Proof.Machine

/-! ## A result and a flag written (R130, R143) -/

@[simp] theorem State.readV_writeFlagged_same (s : State) (x : RegNo) (flag result : Byte) :
    (s.writeFlagged x flag result).readV x = result :=
  State.readV_writeV_same ..

theorem State.readV_writeFlagged_VF (s : State) {x : RegNo} (flag result : Byte) (hx : x ≠ VF) :
    (s.writeFlagged x flag result).readV VF = flag := by
  rw [State.readV_writeFlagged, if_neg hx.symm, if_pos rfl]

/-! ## The bytes computed (R132, R137, R138, R140) -/

@[simp] theorem addBytes_toNat (a b : Byte) : (addBytes a b).toNat = (a.toNat + b.toNat) % 256 :=
  BitVec.toNat_ofNat ..

/-- The 256 that `subBytes` adds keeps the difference a natural and does not change it modulo 256. -/
theorem subBytes_toNat (a b : Byte) : ((subBytes a b).toNat : Int) = (a.toNat - b.toNat : Int) % 256 := by
  have hb := b.isLt
  rw [subBytes, BitVec.toNat_ofNat]
  omega

/-! ## The flags computed (R137 to R141) -/

theorem flagByte_decide (p : Prop) [Decidable p] : flagByte (decide p) = if p then 1 else 0 :=
  if_congr decide_eq_true_iff rfl rfl

@[simp] theorem flagByte_toNat (b : Bool) : (flagByte b).toNat = b.toNat := by
  cases b <;> rfl

theorem lowBitFlag_toNat (b : Byte) : (lowBitFlag b).toNat = b.toNat % 2 := by
  rw [lowBitFlag, flagByte_toNat, BitVec.getLsbD, Nat.toNat_testBit, pow_zero, Nat.div_one]

/-- Bit 7 is the highest of a byte, so the byte holds nothing above it. -/
theorem highBitFlag_toNat (b : Byte) : (highBitFlag b).toNat = b.toNat / 128 := by
  have hb := b.isLt
  rw [highBitFlag, flagByte_toNat, BitVec.getLsbD, Nat.toNat_testBit]
  omega

/-! ## Loads, immediate addition and logic (R131 to R136) -/

/-- Settles O32: either load is one register write. -/
theorem loadsSetTheRegister : Obligations.LoadsSetTheRegister := fun x y kk s =>
  ⟨⟨s.begin.writeV x kk, rfl, State.readV_writeV_same .., SameRegsBut.writeV s.readV_begin x kk, rfl,
      s.begin_completed⟩,
    ⟨s.begin.writeV x (s.readV y), rfl, State.readV_writeV_same .., SameRegsBut.writeV s.readV_begin x _, rfl,
      s.begin_completed⟩⟩

/-- An instruction that writes `result` to Vx and no flag keeps VF unless it is Vx, moves on and completes. -/
theorem exists_result (s : State) (x : RegNo) (result : Byte) :
    ∃ t, complete s (.ok (s.begin.writeV x result)) = .next t ∧ t.readV x = result ∧
      (x ≠ VF → t.readV VF = s.readV VF) ∧ t.pc = s.pc + 2 ∧ Completed s t :=
  ⟨s.begin.writeV x result, rfl, State.readV_writeV_same .., fun hx => State.readV_writeV_other _ _ _ _ hx.symm,
    rfl, s.begin_completed⟩

/-- Settles O33: each of the four is `exists_result`, with the meaning of its operator. -/
theorem addImmediateAndLogicResults : Obligations.AddImmediateAndLogicResults := by
  intro x y kk s
  refine ⟨?add, ?or, ?and, ?xor⟩
  case add =>
    obtain ⟨t, he, hx, hrest⟩ := exists_result s x (addBytes (s.readV x) kk)
    exact ⟨t, he, hx ▸ addBytes_toNat .., hrest⟩
  case or =>
    obtain ⟨t, he, hx, hrest⟩ := exists_result s x (s.readV x ||| s.readV y)
    exact ⟨t, he, fun _ => hx ▸ BitVec.getLsbD_or, hrest⟩
  case and =>
    obtain ⟨t, he, hx, hrest⟩ := exists_result s x (s.readV x &&& s.readV y)
    exact ⟨t, he, fun _ => hx ▸ BitVec.getLsbD_and, hrest⟩
  case xor =>
    obtain ⟨t, he, hx, hrest⟩ := exists_result s x (s.readV x ^^^ s.readV y)
    exact ⟨t, he, fun _ => hx ▸ BitVec.getLsbD_xor, hrest⟩

/-! ## The instructions with a flag (R137 to R141) -/

/-- An instruction that writes a flag and then `result` to Vx leaves the flag in VF unless VF is Vx, moves on and
completes. -/
theorem exists_flagged_result (s : State) (x : RegNo) (flag result : Byte) :
    ∃ t, complete s (.ok (s.begin.writeFlagged x flag result)) = .next t ∧ t.readV x = result ∧
      (x ≠ VF → t.readV VF = flag) ∧ t.pc = s.pc + 2 ∧ Completed s t :=
  ⟨s.begin.writeFlagged x flag result, rfl, State.readV_writeFlagged_same .., State.readV_writeFlagged_VF _ _ _,
    rfl, s.begin_completed⟩

/-- Settles O34, by `addBytes_toNat` for the sum and `flagByte_decide` for the carry. -/
theorem addRegistersWithCarry : Obligations.AddRegistersWithCarry := by
  intro x y s
  obtain ⟨t, he, hx, hflag, hrest⟩ := exists_flagged_result s x (carryFlag (s.readV x) (s.readV y))
    (addBytes (s.readV x) (s.readV y))
  exact ⟨t, he, hx ▸ addBytes_toNat .., fun hne => (hflag hne).trans (flagByte_decide _), hrest⟩

/-- The difference of two bytes, taken as `8xy5` and `8xy7` both take it. -/
theorem exists_difference (s : State) (x : RegNo) (minuend subtrahend : Byte) :
    ∃ t, complete s (.ok (s.begin.writeFlagged x (greaterFlag minuend subtrahend) (subBytes minuend subtrahend))) =
        .next t ∧
      ((t.readV x).toNat : Int) = (minuend.toNat - subtrahend.toNat : Int) % 256 ∧
      (x ≠ VF → t.readV VF = if minuend.toNat > subtrahend.toNat then 1 else 0) ∧
      t.pc = s.pc + 2 ∧ Completed s t := by
  obtain ⟨t, he, hx, hflag, hrest⟩ := exists_flagged_result s x (greaterFlag minuend subtrahend)
    (subBytes minuend subtrahend)
  exact ⟨t, he, hx ▸ subBytes_toNat .., fun hne => (hflag hne).trans (flagByte_decide _), hrest⟩

/-- Settles O35: both are `exists_difference`, with the operands in either order. -/
theorem subtractionsWithStrictFlag : Obligations.SubtractionsWithStrictFlag := fun x y s =>
  ⟨exists_difference s x (s.readV x) (s.readV y), exists_difference s x (s.readV y) (s.readV x)⟩

/-- Settles O36, by the value of each shift and of the bit that it shifts out. -/
theorem shiftsWithTheBitShiftedOut : Obligations.ShiftsWithTheBitShiftedOut := by
  intro x y s
  refine ⟨?shr, ?shl⟩
  case shr =>
    obtain ⟨t, he, hx, hflag, hrest⟩ := exists_flagged_result s x (lowBitFlag (s.readV x)) (s.readV x >>> 1)
    exact ⟨t, he, by rw [hx, BitVec.toNat_ushiftRight, Nat.shiftRight_one],
      fun hne => hflag hne ▸ lowBitFlag_toNat _, hrest⟩
  case shl =>
    obtain ⟨t, he, hx, hflag, hrest⟩ := exists_flagged_result s x (highBitFlag (s.readV x)) (s.readV x <<< 1)
    exact ⟨t, he, by rw [hx, BitVec.toNat_shiftLeft, Nat.shiftLeft_eq, pow_one, Nat.mul_comm],
      fun hne => hflag hne ▸ highBitFlag_toNat _, hrest⟩

/-! ## The random byte (R142) -/

/-- A byte masked by `mask` has no bit that `mask` lacks. -/
theorem and_mask_and_not_mask (b mask : Byte) : b &&& mask &&& ~~~mask = 0 := by
  rw [BitVec.and_assoc, BitVec.and_not_self]
  exact BitVec.and_zero

/-- Settles O37: the result is the byte drawn, masked; the frame is by the cases of an instruction. -/
theorem randomByteIsMasked : Obligations.RandomByteIsMasked := by
  intro x kk s
  have he : exec (.rnd x kk) s = .next (s.begin.drawRand.2.writeV x (Config.randByte s.draws &&& kk)) := rfl
  have hx := State.readV_writeV_same s.begin.drawRand.2 x (Config.randByte s.draws &&& kk)
  have hc := exec_cases he
  exact ⟨_, he, hx, by rw [hx, and_mask_and_not_mask], rfl, rfl, s.begin_completed, hc.sameRegs,
    hc.i_eq nofun nofun nofun, hc.sameStack nofun nofun, hc.sameMemory nofun nofun, hc.sameCells nofun nofun,
    hc.sameControl (.inl (by simp [MayFail])) nofun, (hc.fb_eq_and_intents_eq_nil nofun nofun).2⟩

end Sys2Proof.Machine
end

section
/-! PROOFS. Index and memory (spec/43_index_memory.md): the values that I takes, the three digits of a byte, and the
transfers between V0..Vx and memory. -/

namespace Sys2Proof.Machine

/-! ## The index register (R151 to R153) -/

/-- Settles O40: 16 bits hold every `nnn` (`address_toNat`). -/
theorem loadIndexSetsI : Obligations.LoadIndexSetsI := fun nnn s =>
  ⟨{ s.begin with i := address nnn }, rfl, address_toNat nnn, fun _ _ => rfl, rfl, s.begin_completed⟩

@[simp] theorem indexPlus_toNat (i : Word) (vx : Byte) : (indexPlus i vx).toNat = (i.toNat + vx.toNat) % 65536 :=
  BitVec.toNat_ofNat ..

/-- The glyph address is at most 5 · 255, so it does not wrap. -/
@[simp] theorem glyphAddress_toNat (vx : Byte) : (glyphAddress vx).toNat = 5 * vx.toNat := by
  have hvx := vx.isLt
  rw [glyphAddress, BitVec.toNat_ofNat]
  simp only [Config.fontBase, Config.glyphBytes]
  omega

/-- Settles O41, by `indexPlus_toNat` and `glyphAddress_toNat`. -/
theorem indexArithmeticResults : Obligations.IndexArithmeticResults := fun x s =>
  ⟨⟨{ s.begin with i := indexPlus s.i (s.readV x) }, rfl, indexPlus_toNat .., rfl, s.begin_completed⟩,
    ⟨{ s.begin with i := glyphAddress (s.readV x) }, rfl, glyphAddress_toNat _, rfl, s.begin_completed⟩⟩

/-! ## The decimal digits (R154) -/

/-- After bytes were written from `a` up, the byte at `a + j` is the one of index `j`. -/
theorem Memory.read_writeBytes_add {m : Memory} (hm : m.wf) {bs : List Byte} (a : Nat) {j : Nat} (hj : j < bs.length) :
    (m.writeBytes a bs).read (a + j) = bs[j] := by
  rw [Memory.read_writeBytes hm.1, if_pos (by omega), Nat.add_sub_cancel_left, List.getD_eq_getElem _ _ hj]

/-- After the digits of `b` were written from `a` up, the hundreds, tens and units of `b` are at `a`, `a + 1` and
`a + 2`: each fits a byte, being at most `b`. -/
theorem Memory.read_writeBytes_bcdDigits {m : Memory} (hm : m.wf) (a : Nat) (b : Byte) :
    ((m.writeBytes a (bcdDigits b)).read a).toNat = b.toNat / 100 ∧
      ((m.writeBytes a (bcdDigits b)).read (a + 1)).toNat = b.toNat / 10 % 10 ∧
      ((m.writeBytes a (bcdDigits b)).read (a + 2)).toNat = b.toNat % 10 := by
  have hfits {n : Nat} (hn : n ≤ b.toNat) : (BitVec.ofNat 8 n).toNat = n :=
    (BitVec.toNat_ofNat ..).trans (Nat.mod_eq_of_lt (Nat.lt_of_le_of_lt hn b.isLt))
  have hread (j : Nat) (hj : j < 3) :
      ((m.writeBytes a (bcdDigits b)).read (a + j)).toNat = (bcdDigits b)[j].toNat :=
    congrArg BitVec.toNat (Memory.read_writeBytes_add hm a hj)
  exact ⟨(hread 0 (by decide)).trans (hfits (by omega)), (hread 1 (by decide)).trans (hfits (by omega)),
    (hread 2 (by decide)).trans (hfits (by omega))⟩

/-- `Fx33` inside memory completes, with the digits of Vx stored from I up (R154). -/
theorem exec_ldB_of_le {x : RegNo} {s : State} (h : s.dataAddress + 3 ≤ Config.memSize) :
    exec (.ldB x) s = .next { s.begin with mem := s.mem.writeBytes s.dataAddress (bcdDigits (s.readV x)) } :=
  complete_guarded_of_le h

/-- Settles O43, by the digits that `Memory.read_writeBytes_bcdDigits` reads back. -/
theorem bcdStoresTheThreeDigits : Obligations.BcdStoresTheThreeDigits := by
  intro x s hm hend
  obtain ⟨hundreds, tens, units⟩ := Memory.read_writeBytes_bcdDigits hm s.i.toNat (s.readV x)
  have hvx := (s.readV x).isLt
  refine ⟨_, exec_ldB_of_le (Nat.succ_le_succ hend), ?_⟩
  simp only [State.dataAddress, hundreds, tens, units]
  exact ⟨by omega, by omega, by omega, by omega, rfl, s.begin_completed⟩

/-! ## The block V0..Vx (R155, R156) -/

/-- Settles O44, by `Memory.read_writeBytes_readBlock`. -/
theorem storeBlockCopiesTheRegisters : Obligations.StoreBlockCopiesTheRegisters := fun _ s hm hend =>
  ⟨_, exec_ldMemVx_of_le (Nat.succ_le_succ hend),
    fun _ hr => Memory.read_writeBytes_readBlock hm.1 s s.dataAddress hr, rfl, s.begin_completed⟩

/-- `Fx65` inside memory completes, with V0 to Vx loaded from I up (R156). -/
theorem exec_ldVxMem_of_le {x : RegNo} {s : State} (h : s.dataAddress + (x.val + 1) ≤ Config.memSize) :
    exec (.ldVxMem x) s = .next (s.begin.loadBlock x s.dataAddress) :=
  complete_guarded_of_le h

/-- Settles O45: the registers by `State.readV_loadBlock`, on either side of x; the frame is that of any write to
registers only. -/
theorem loadBlockCopiesTheBytes : Obligations.LoadBlockCopiesTheBytes := by
  intro x s hend
  have hread := fun r => State.readV_loadBlock s.begin x r s.dataAddress
  have hframe : OnlyRegistersChange (writtenRegs (.ldVxMem x)) s (s.begin.loadBlock x s.dataAddress) :=
    onlyRegistersChange_begin (SameRegsBut.loadBlock s x s.dataAddress)
  obtain ⟨-, hi, hstack, hmem, hcells, hcontrol, hnodraw, -⟩ := hframe
  exact ⟨_, exec_ldVxMem_of_le (Nat.succ_le_succ hend), fun r hr => (hread r).trans (if_pos hr),
    fun r hr => (hread r).trans (if_neg (not_le.2 hr)), hi, rfl, s.begin_completed, hstack, hmem, hcells, hcontrol,
    hnodraw⟩

/-- Settles O47: the store leaves I as it was, so the load reads back the bytes stored. -/
theorem storeThenLoadRestoresTheRegisters : Obligations.StoreThenLoadRestoresTheRegisters := by
  intro x s hm hend
  obtain ⟨t, he, hstored, -⟩ := storeBlockCopiesTheRegisters x s hm hend
  have hi : t.i = s.i := (exec_cases he).i_eq nofun nofun nofun
  refine ⟨t, he, fun u hmem hui => ?_⟩
  obtain ⟨w, hw, hloaded, -⟩ := loadBlockCopiesTheBytes x u (by rwa [hui, hi])
  exact ⟨w, hw, fun r hr => by rw [hloaded r hr, hmem, hui, hi, hstored r hr]⟩

end Sys2Proof.Machine
end

section
/-! PROOFS. Display (spec/44_display.md): clearing, the cells that a sprite touches, and what one draw and two draws of it
leave in the cells, the intents and VF. -/

namespace Sys2Proof.Machine

/-- Settles O48: `00E0` completes with every cell unlit (`Framebuffer.get_unlit`) and one `clear()`. -/
theorem clearUnlightsEveryCell : Obligations.ClearUnlightsEveryCell := fun s =>
  ⟨{ s.begin with fb := Framebuffer.unlit, intents := [.clear] }, rfl, Framebuffer.get_unlit, rfl, rfl,
    s.begin_completed, fun _ _ => rfl, rfl, ⟨rfl, rfl⟩, fun _ => rfl, ⟨rfl, rfl, rfl, rfl⟩, rfl⟩

/-! ## The cells that a draw toggles (R165, R167) -/

/-- The cells of the sprite of `Dxyn`, in toggle order. -/
def State.drawnCells (s : State) (x y : RegNo) (n : Nat) : List (Fin Config.fbWidth × Fin Config.fbHeight) :=
  spriteCells (s.readV x).toNat (s.readV y).toNat 0 (s.mem.readBytes s.dataAddress n)

@[simp] theorem Memory.getElem_readBytes (m : Memory) (a n j : Nat) (h : j < (m.readBytes a n).length) :
    (m.readBytes a n)[j] = m.read (a + j) := by
  simp [Memory.readBytes]

theorem State.mem_drawnCells {s : State} {x y : RegNo} {n : Nat} {c : Fin Config.fbWidth} {r : Fin Config.fbHeight} :
    (c, r) ∈ s.drawnCells x y n ↔ Touches x y n s c r := by
  simp only [drawnCells, mem_spriteCells, Memory.getElem_readBytes, Memory.length_readBytes, place_eq_some,
    Nat.zero_add, exists_prop, Touches, dataAddress]

theorem State.nodup_drawnCells (s : State) (x y : RegNo) (n : Nat) : (s.drawnCells x y n).Nodup :=
  nodup_spriteCells ..

/-- The recursion over the sprite rows as a `flatMap` over the row offsets. -/
theorem spriteCells_map_range (vx vy j₀ n : Nat) (row : Nat → Byte) :
    spriteCells vx vy j₀ ((List.range n).map row) =
      (List.range n).flatMap fun j => spriteRowCells vx vy (j₀ + j) (row j) := by
  induction n generalizing j₀ row with
  | zero => rfl
  | succ n ih =>
    rw [List.range_succ_eq_map, List.map_cons, List.map_map, spriteCells, ih, List.flatMap_cons, List.flatMap_map]
    simp only [Nat.add_zero, Function.comp_apply, Nat.succ_eq_add_one, Nat.add_assoc, Nat.add_comm 1]

/-! ## What a draw leaves (R168 to R170) -/

theorem flagByte_eq_one {b : Bool} : flagByte b = 1 ↔ b = true := by
  cases b <;> decide

theorem flagByte_eq_zero {b : Bool} : flagByte b = 0 ↔ b = false := by
  cases b <;> decide

/-- What `Dxyn` inside memory answers at `s`. -/
def State.afterDraw (s : State) (x y : RegNo) (n : Nat) : State :=
  let d := drawSprite s.fb (s.readV x).toNat (s.readV y).toNat (s.mem.readBytes s.dataAddress n)
  { s.begin.writeV VF (collisionFlag d) with fb := d.fb, intents := d.intents }

/-- `Dxyn` inside memory completes. -/
theorem exec_drw_of_le {x y : RegNo} {n : Nat} {s : State} (h : n = 0 ∨ s.i.toNat + n - 1 ≤ 0xFFF) :
    exec (.drw x y n) s = .next (s.afterDraw x y n) := by
  have hcheck : checkRange .read s.dataAddress n = none := by
    simp only [checkRange_eq_none, Config.memSize, State.dataAddress]
    omega
  simp only [exec, execDrw, hcheck, guarded_none, complete_ok, State.afterDraw]

section

variable (s : State) (x y : RegNo) (n : Nat)

theorem State.afterDraw_intents : (s.afterDraw x y n).intents =
    (s.drawnCells x y n).map fun p => .setPixel p.1 p.2 (!s.fb.get p.1 p.2) :=
  (foldl_toggleCell (s.nodup_drawnCells x y n) _).2.2

theorem State.readV_afterDraw_VF : (s.afterDraw x y n).readV VF =
    flagByte ((s.drawnCells x y n).any fun p => s.fb.get p.1 p.2) := by
  have hflag := State.readV_writeV_same s.begin VF (collisionFlag
    (drawSprite s.fb (s.readV x).toNat (s.readV y).toNat (s.mem.readBytes s.dataAddress n)))
  refine hflag.trans (congrArg flagByte ?_)
  exact ((foldl_toggleCell (s.nodup_drawnCells x y n) _).2.1).trans (Bool.false_or _)

end

section

variable {s : State} {x y : RegNo} {n : Nat} {c : Fin Config.fbWidth} {r : Fin Config.fbHeight}

theorem State.get_afterDraw_of_touches (h : Touches x y n s c r) :
    (s.afterDraw x y n).fb.get c r = !s.fb.get c r :=
  ((foldl_toggleCell (s.nodup_drawnCells x y n) _).1 c r).trans (if_pos (State.mem_drawnCells.2 h))

theorem State.get_afterDraw_of_not_touches (h : ¬Touches x y n s c r) :
    (s.afterDraw x y n).fb.get c r = s.fb.get c r :=
  ((foldl_toggleCell (s.nodup_drawnCells x y n) _).1 c r).trans (if_neg (mt State.mem_drawnCells.1 h))

theorem State.afterDraw_VF_eq_one :
    (s.afterDraw x y n).readV VF = 1 ↔ ∃ c r, Touches x y n s c r ∧ s.fb.get c r = true := by
  have hflag := State.readV_afterDraw_VF s x y n
  simp only [hflag, flagByte_eq_one, List.any_eq_true, Prod.exists, State.mem_drawnCells]

theorem State.afterDraw_VF_eq_zero :
    (s.afterDraw x y n).readV VF = 0 ↔ ¬∃ c r, Touches x y n s c r ∧ s.fb.get c r = true := by
  rw [← State.afterDraw_VF_eq_one, State.readV_afterDraw_VF, flagByte_eq_one, flagByte_eq_zero, Bool.not_eq_true]

end

/-- Settles O49: the cells and VF of `State.afterDraw`. -/
theorem drawInvertsTheTouchedCells : Obligations.DrawInvertsTheTouchedCells := fun x y n s h =>
  ⟨s.afterDraw x y n, exec_drw_of_le h, fun _ _ => State.get_afterDraw_of_touches,
    fun _ _ => State.get_afterDraw_of_not_touches, State.afterDraw_VF_eq_one.2, State.afterDraw_VF_eq_zero.2, rfl,
    s.begin_completed⟩

/-- Settles O50: one intent for each cell of `State.drawnCells`, whose list is read row by row and bit by bit; each cell
of it is inverted, so the intent's value is the one the draw leaves. -/
theorem drawEmitsOneIntentPerToggle : Obligations.DrawEmitsOneIntentPerToggle := by
  intro x y n s t h he
  cases he.symm.trans (exec_drw_of_le h)
  have hintents : (s.afterDraw x y n).intents =
      (s.drawnCells x y n).map fun p => .setPixel p.1 p.2 ((s.afterDraw x y n).fb.get p.1 p.2) := by
    refine (State.afterDraw_intents s x y n).trans (List.map_congr_left fun p hp => ?_)
    rw [State.get_afterDraw_of_touches (State.mem_drawnCells.1 hp)]
  rw [hintents, State.drawnCells, Memory.readBytes, spriteCells_map_range, List.map_flatMap]
  simp only [spriteRowCells, List.map_filterMap, Nat.zero_add, State.dataAddress, apply_ite (Option.map _),
    Option.map_none]

/-- Settles O51, each part of the frame by its lemma over the cases of an instruction. -/
theorem drawChangesOnlyCellsAndVF : Obligations.DrawChangesOnlyCellsAndVF := by
  intro x y n s t hend h
  have hc := exec_cases h
  exact ⟨hc.sameRegs, hc.i_eq nofun nofun nofun, hc.sameStack nofun nofun, hc.sameMemory nofun nofun,
    hc.sameControl (.inr hend) nofun, hc.draws_eq nofun nofun, hc.ticked (.inr hend) nofun nofun⟩

/-! ## The same draw twice (R171) -/

/-- A sprite touches the same cells where its coordinates, I and memory are the same. -/
theorem touches_congr {s t : State} {x y : RegNo} {n : Nat} {c : Fin Config.fbWidth} {r : Fin Config.fbHeight}
    (hx : t.readV x = s.readV x) (hy : t.readV y = s.readV y) (hi : t.i = s.i) (hmem : t.mem = s.mem) :
    Touches x y n t c r ↔ Touches x y n s c r := by
  simp only [Touches, hx, hy, hi, hmem]

/-- Settles O52: the second draw touches the same cells, so it inverts them back, and it meets one lit exactly where the
first met it unlit. -/
theorem drawingTwiceRestoresTheFramebuffer : Obligations.DrawingTwiceRestoresTheFramebuffer := by
  intro x y n s t h he hx hy
  cases he.symm.trans (exec_drw_of_le h)
  have htouches : ∀ c r, Touches x y n (s.afterDraw x y n) c r ↔ Touches x y n s c r := fun _ _ =>
    touches_congr hx hy rfl rfl
  have hlit : ∀ c r, Touches x y n s c r →
      ((s.afterDraw x y n).fb.get c r = true ↔ s.fb.get c r = false) := fun c r ht => by
    rw [State.get_afterDraw_of_touches ht, Bool.not_eq_true']
  have hcollides : ((s.afterDraw x y n).afterDraw x y n).readV VF = 1 ↔
      ∃ c r, Touches x y n s c r ∧ s.fb.get c r = false := by
    simp only [State.afterDraw_VF_eq_one, htouches]
    exact exists₂_congr fun c r => and_congr_right (hlit c r)
  refine ⟨_, exec_drw_of_le h, fun c r => ?_, hcollides, fun hnone => hcollides.trans ?_⟩
  · by_cases ht : Touches x y n s c r
    · rw [State.get_afterDraw_of_touches ((htouches c r).2 ht), State.get_afterDraw_of_touches ht, Bool.not_not]
    · rw [State.get_afterDraw_of_not_touches (mt (htouches c r).1 ht), State.get_afterDraw_of_not_touches ht]
  · have hunlit := State.afterDraw_VF_eq_zero.1 hnone
    refine exists₂_congr fun c r => and_iff_left_of_imp fun ht => ?_
    exact Bool.eq_false_iff.2 fun hb => hunlit ⟨c, r, ht, hb⟩

/-- One sprite bit at (0, 0), where V0 = 0, and that cell lit (log 32). -/
def litUnderSprite : State :=
  { State.reset with i := 0x300, mem := [(0x300, 0x80)], fb := Framebuffer.unlit.put 0 0 true }

/-- Refutes O53: the sprite touches the lit cell (0, 0) alone, so the first draw unlights it and the second meets no lit
cell. -/
theorem not_secondDrawCollidesIffSomeBitIsUnclipped : ¬Obligations.SecondDrawCollidesIffSomeBitIsUnclipped := by
  intro h
  have hin : (1 : Nat) = 0 ∨ litUnderSprite.i.toNat + 1 - 1 ≤ 0xFFF := .inr (by decide)
  have hfirst := exec_drw_of_le (x := 0) (y := 0) hin
  have hsecond := exec_drw_of_le (s := litUnderSprite.afterDraw 0 0 1) (x := 0) (y := 0) hin
  have hsecond_VF : ((litUnderSprite.afterDraw 0 0 1).afterDraw 0 0 1).readV VF = 0 := by decide
  have htouches : Touches 0 0 1 litUnderSprite 0 0 :=
    ⟨0, 0, by decide, by decide, by decide, .inl (by decide), by decide⟩
  have hcollides := (h 0 0 1 _ _ _ hin hfirst rfl rfl hsecond).2 ⟨0, 0, htouches⟩
  exact absurd (hsecond_VF.symm.trans hcollides) (by decide)

end Sys2Proof.Machine
end

section
/-! PROOFS. Timers and input (spec/45_timers_input.md): what moves between the timers and Vx, the skips on a key, the key
that KEY_SELECT draws, and the wait of `Fx0A`. -/

namespace Sys2Proof.Machine

/-! ## Timers (R181 to R183) -/

/-- Settles O54: DT is read as `countDown_toNat` gives it, and written after the tick. -/
theorem delayTimerTransfers : Obligations.DelayTimerTransfers := by
  intro x s
  have hx : ((s.begin.writeV x s.begin.dt).readV x).toNat = s.dt.toNat - 1 := by
    rw [State.readV_writeV_same, State.begin_dt, countDown_toNat]
  exact ⟨⟨s.begin.writeV x s.begin.dt, rfl, hx, rfl, s.begin_completed⟩, _, rfl, rfl, rfl, rfl⟩

/-- The sound is on exactly while ST is not 0 (spec/10_state.md R44). -/
theorem State.soundActive_iff {s : State} : s.soundActive = true ↔ s.st.toNat ≠ 0 :=
  decide_eq_true_iff.trans BitVec.toNat_ne_iff_ne.symm

/-- Settles O55: the sound level is that of the value written, by `State.soundActive_iff`. -/
theorem soundTimerIsSet : Obligations.SoundTimerIsSet := fun x s =>
  ⟨{ s.begin with st := s.readV x }, rfl, rfl, State.soundActive_iff, rfl, rfl⟩

/-! ## Skips on a key (R184, R185) -/

/-- The key test is of the level of the key that the code names; a code above 0xF names none. -/
theorem State.keyPressed_iff {s : State} {code : Byte} :
    s.keyPressed code = true ↔ ∃ k : KeyNo, code.toNat = k.val ∧ s.keys.getLsbD k.val = true := by
  constructor
  · intro h
    exact ⟨⟨code.toNat, BitVec.lt_of_getLsbD h⟩, rfl, h⟩
  · rintro ⟨k, hcode, hk⟩
    rwa [State.keyPressed, hcode]

/-- Settles O26: either is a skip, on the key test or on its negation. -/
theorem keySkipsTestTheLevelOfKeys : Obligations.KeySkipsTestTheLevelOfKeys := by
  intro x s
  simp only [← State.keyPressed_iff]
  refine ⟨?skp, ?sknp⟩
  case skp =>
    obtain ⟨t, he, hpc, -, hdone⟩ := exists_skip_of_iff s (c := s.keyPressed (s.readV x)) Iff.rfl
    exact ⟨t, he, hdone, fun hp => hpc.trans (if_pos hp), fun hp => hpc.trans (if_neg hp)⟩
  case sknp =>
    have hnot : (!s.keyPressed (s.readV x)) = true ↔ ¬s.keyPressed (s.readV x) = true := by
      rw [Bool.not_eq_true', Bool.not_eq_true]
    obtain ⟨t, he, hpc, -, hdone⟩ := exists_skip_of_iff s hnot
    exact ⟨t, he, hdone, fun hp => hpc.trans (if_neg (not_not_intro hp)), fun hp => hpc.trans (if_pos hp)⟩

/-! ## The key selected (R188) -/

theorem getLsbD_of_selectKey {keys : BitVec Config.numKeys} {choice : Nat} {k : KeyNo}
    (h : selectKey keys choice = some k) : keys.getLsbD k.val = true :=
  mem_pressedKeys.1 (List.mem_of_getElem? h)

/-- A pressed key is selected by its index among the pressed keys. -/
theorem exists_selectKey_eq_some {keys : BitVec Config.numKeys} {k : KeyNo} (h : keys.getLsbD k.val = true) :
    ∃ choice, selectKey keys choice = some k := by
  obtain ⟨j, hj, hk⟩ := List.mem_iff_getElem.1 (mem_pressedKeys.2 h)
  exact ⟨j, by rw [selectKey, Nat.mod_eq_of_lt hj, List.getElem?_eq_getElem hj, hk]⟩

/-- The remainder modulo the number of pressed keys is an index among them unless there are none. -/
theorem keys_eq_zero_of_selectKey_eq_none {keys : BitVec Config.numKeys} {choice : Nat}
    (h : selectKey keys choice = none) : keys = 0 := by
  have hle := List.getElem?_eq_none_iff.1 h
  refine pressedKeys_eq_nil.1 (List.length_eq_zero_iff.1 ?_)
  by_contra hne
  exact absurd (Nat.mod_lt choice (Nat.pos_of_ne_zero hne)) (not_lt.2 hle)

/-- Settles O60, by a lemma for each of the three parts. -/
theorem keySelectionAdmitsExactlyThePressedKeys : Obligations.KeySelectionAdmitsExactlyThePressedKeys := fun _ =>
  ⟨fun _ _ => getLsbD_of_selectKey, fun _ => exists_selectKey_eq_some,
    fun ⟨_, h⟩ => keys_eq_zero_of_selectKey_eq_none h⟩

/-! ## The key drawn and put in Vx -/

theorem State.drawKey_of_keys_ne_zero {s : State} (h : s.keys ≠ 0) :
    ∃ k : KeyNo, s.keys.getLsbD k.val = true ∧
      s.drawKey = some (BitVec.ofNat 8 k.val, { s with draws := s.draws + 1 }) :=
  s.drawKey_cases.resolve_right fun ⟨hnil, _⟩ => h (pressedKeys_eq_nil.1 hnil)

theorem State.drawKey_of_keys_eq_zero {s : State} (h : s.keys = 0) : s.drawKey = none := by
  obtain ⟨k, hk, -⟩ | ⟨-, he⟩ := s.drawKey_cases
  · simp [h] at hk
  · exact he

/-- 8 bits hold every key code. -/
theorem State.readV_writeV_key_toNat (s : State) (x : RegNo) (k : KeyNo) :
    ((s.writeV x (BitVec.ofNat 8 k.val)).readV x).toNat = k.val := by
  rw [State.readV_writeV_same, BitVec.toNat_ofNat, Nat.mod_eq_of_lt (k.isLt.trans (by decide))]

/-! ## The wait for a key (R186, R187) -/

/-- `Fx0A` with a key pressed completes. -/
theorem exec_ldVxK_of_keys_ne_zero (x : RegNo) {s : State} (h : s.keys ≠ 0) :
    ∃ k : KeyNo, s.keys.getLsbD k.val = true ∧ exec (.ldVxK x) s =
      .next (State.writeV { s.begin with draws := s.draws + 1 } x (BitVec.ofNat 8 k.val)) := by
  obtain ⟨k, hk, he⟩ := State.drawKey_of_keys_ne_zero (s := s.begin) h
  exact ⟨k, hk, by rw [exec, execLdVxK, he]; rfl⟩

/-- `Fx0A` with no key pressed suspends, with PC back at A. -/
theorem exec_ldVxK_of_keys_eq_zero (x : RegNo) {s : State} (h : s.keys = 0) :
    exec (.ldVxK x) s = .next { s.begin with pc := s.pc, wait := some x, status := .waiting } := by
  rw [exec, execLdVxK, State.drawKey_of_keys_eq_zero (s := s.begin) h]
  rfl

/-- Settles O57: the code is that of the key drawn, and the draw and the write to Vx leave the rest of `s.begin`. -/
theorem keyWaitCompletesWithAPressedKey : Obligations.KeyWaitCompletesWithAPressedKey := by
  intro x s h
  obtain ⟨k, hk, he⟩ := exec_ldVxK_of_keys_ne_zero x h
  have hc := exec_cases he
  exact ⟨_, k, he, hk, State.readV_writeV_key_toNat _ x k, rfl, s.begin_completed, hc.sameRegs,
    hc.i_eq nofun nofun nofun, hc.sameStack nofun nofun, hc.sameMemory nofun nofun, hc.sameCells nofun nofun,
    ⟨rfl, rfl, rfl, rfl⟩, rfl⟩

/-- Settles O58: the suspension changes PC, WAIT and the status of `s.begin`. -/
theorem keyWaitSuspendsWithoutAKey : Obligations.KeyWaitSuspendsWithoutAKey := by
  intro x s h
  have he := exec_ldVxK_of_keys_eq_zero x h
  have hc := exec_cases he
  exact ⟨_, he, rfl, rfl, rfl, s.begin_completed.2, fun _ _ => rfl, hc.i_eq nofun nofun nofun,
    hc.sameStack nofun nofun, hc.sameMemory nofun nofun, hc.sameCells nofun nofun, rfl, rfl, rfl, rfl, rfl⟩

/-- Settles O59: a step of a waiting block is `waitingStep`, which draws a key or, with none pressed, stays. -/
theorem waitingStepOnlyChecksTheKeys : Obligations.WaitingStepOnlyChecksTheKeys := by
  intro x s hh hw
  rw [step_of_wait hh hw]
  refine ⟨fun h => ?stays, fun h => ?completes⟩
  case stays => rw [waitingStep, State.drawKey_of_keys_eq_zero h]
  case completes =>
    obtain ⟨k, hk, he⟩ := State.drawKey_of_keys_ne_zero h
    refine ⟨_, k, rfl, hk, ?_⟩
    rw [waitingStep, he]
    exact ⟨State.readV_writeV_key_toNat _ x k,
      SameRegsBut.writeV (t := { s with draws := s.draws + 1 }) (fun _ => rfl) x _, rfl⟩

end Sys2Proof.Machine
end

section
/-! PROOFS. The two outcomes of `reset_load` (spec/70_reset_and_hazards.md R231, R232). -/

namespace Sys2Proof.Machine

/-- A ROM that fits is written at 0x200, over the memory of the reset (R231). -/
theorem resetLoad_of_fits (p : Config.Params) {rom : List Byte} (s : State) (h : rom.length ≤ Config.maxRom) :
    resetLoad p rom s =
      { State.resetWith p with draws := s.draws, mem := (State.resetWith p).mem.writeBytes Config.progBase rom } :=
  if_neg (Nat.not_lt.2 h)

/-- A ROM that does not fit halts the block with its length (R232). -/
theorem resetLoad_of_tooLarge (p : Config.Params) {rom : List Byte} (s : State) (h : Config.maxRom < rom.length) :
    resetLoad p rom s =
      { State.resetWith p with
        draws := s.draws, halt := some (.romTooLarge rom.length), status := .romTooLarge rom.length } :=
  if_pos h

/-- Settles O7: the ROM's bytes and the rest of memory as `Memory.read_writeBytes_add` and
`Memory.read_writeBytes_outside` read them back; after a load that does not fit, the step of a halted block. -/
theorem resetLoadPlacesTheRomOrHalts : Obligations.ResetLoadPlacesTheRomOrHalts := by
  refine fun p rom s => ⟨fun hfits => ?fits, fun hlarge => ?tooLarge⟩
  case fits =>
    rw [resetLoad_of_fits p s hfits]
    exact ⟨fun _ hk => Memory.read_writeBytes_add (Memory.reset_wf p) Config.progBase hk,
      fun _ ha => Memory.read_writeBytes_outside (Memory.reset_wf p) ha, rfl⟩
  case tooLarge =>
    rw [resetLoad_of_tooLarge p s hlarge]
    exact ⟨rfl, step_of_halt rfl⟩

end Sys2Proof.Machine
end
